-- ==== Sys2Proof/Word.lean ====
section
/-! DEFINITION. The words of the machine: register values, instruction words, bytes
(`10_state.md` R14, R16; `30_encoding.md` R53; `20_memory.md` R37). -/

namespace Sys2Proof

/-- A byte of program text (R37). -/
abbrev Byte := BitVec 8

/-- A 64-bit general register, the operand value and the program counter (R2, R14, R16). -/
abbrev Word := BitVec 64

/-- A 32-bit instruction word (R53). -/
abbrev InstrWord := BitVec 32

end Sys2Proof
end

