-- ==== Sys2Proof/Syntax.lean ====
section
/-! DEFINITION. The instruction (one row of `opcode_table.json`) and the assembler's spellings of it
(`30_encoding.md` R55, R66, R67). -/

namespace Sys2Proof

/-- The instructions of the admitted subset (`00_scope.md` R7): exactly one. `t` is the register
number of `<Xt>`, all 32 values admitted (`30_encoding.md` R55, R56). -/
inductive Instr where
  | tlbiRvale1is (t : BitVec 5)
  deriving DecidableEq, Repr

/-- The register operand as written: `X<n>`, or `XZR` for number 31 (R66). -/
inductive XReg where
  | x (n : Nat)
  | xzr
  deriving DecidableEq, Repr

/-- A line of assembly: `TLBI RVALE1IS{, <Xt>}`, or the generic spelling
`SYS #<op1>, C<n>, C<m>, #<op2>{, <Xt>}` (R66, R67). -/
inductive Asm where
  | tlbiRvale1is (xt : Option XReg)
  | sys (op1 cn cm op2 : Nat) (xt : Option XReg)
  deriving DecidableEq, Repr

end Sys2Proof
end

