-- ==== Sys2Proof/WellFormed.lean ====
section
/-! DEFINITION. Which instructions and assembly lines are well formed (`30_encoding.md` R54, R55,
R66, R67). -/

namespace Sys2Proof

/-- Every register number of five bits is admitted (R55): the type already says it, so nothing is
left to check of an `Instr`. -/
def Instr.wellFormed : Instr → Bool
  | .tlbiRvale1is _ => true

/-- `<Xt>` is `X0` to `X30`, or `XZR` (R66). -/
def XReg.wellFormed : XReg → Bool
  | .x n => decide (n ≤ 30)
  | .xzr => true

/-- An omitted operand is well formed (R66). -/
def optionalXRegWellFormed : Option XReg → Bool
  | none => true
  | some r => r.wellFormed

/-- A line is well formed when its register exists and, in the `SYS` spelling, its selectors fit
their fields: three, four, four and three bits (R53, R67). -/
def Asm.wellFormed : Asm → Bool
  | .tlbiRvale1is xt => optionalXRegWellFormed xt
  | .sys op1 cn cm op2 xt =>
    decide (op1 < 8) && decide (cn < 16) && decide (cm < 16) && decide (op2 < 8)
      && optionalXRegWellFormed xt

end Sys2Proof
end

