-- ==== Sys2Proof/Decode.lean ====
section
/-! DEFINITION. The decoder, total on words and on bytes, the encoder, and the assembler
(`30_encoding.md` R53 to R56, R66 to R68; `20_memory.md` R37). Decoding reads no state (R68). The
positions of the fields in the word are the spec's general knowledge (decision D2; log 4). -/

namespace Sys2Proof

/-- What a word decodes to (R68): the instruction, or `Unknown(w)`, which the machine refuses. -/
inductive Decoded where
  | instr (i : Instr)
  | unknown (w : InstrWord)
  deriving DecidableEq, Repr

/-- Why bytes are no instruction. -/
inductive Reject where
  /-- A whole word that does not match R55. -/
  | unknownWord (w : InstrWord)
  /-- Fewer than the four bytes every instruction has (R53). -/
  | truncated (bytes : List Byte)
  deriving DecidableEq, Repr

/-- The mask of R55. -/
def patternMask : InstrWord := 0xFFFFFFE0#32

/-- The pattern of R55. -/
def patternMatch : InstrWord := 0xD50882A0#32

/-- R55 and R68: the word is `TLBI RVALE1IS` exactly when it matches, and then `t = uint(w[4:0])`. -/
def decode (w : InstrWord) : Decoded :=
  if w &&& patternMask = patternMatch then .instr (.tlbiRvale1is (w.extractLsb' 0 5))
  else .unknown w

/-- R53: the System-instruction format, field by field from bit 31 down. -/
def systemWord (l : BitVec 1) (op0 : BitVec 2) (op1 : BitVec 3) (crn crm : BitVec 4)
    (op2 : BitVec 3) (rt : BitVec 5) : InstrWord :=
  0b1101010100#10 ++ l ++ op0 ++ op1 ++ crn ++ crm ++ op2 ++ rt

/-- R53, R54: the word of an instruction, from its selector values. -/
def encode : Instr → InstrWord
  | .tlbiRvale1is t => systemWord 0b0#1 0b01#2 0b000#3 0b1000#4 0b0010#4 0b101#3 t

/-- R37: four bytes, least significant at the lowest address. -/
def wordOfBytes (b0 b1 b2 b3 : Byte) : InstrWord := b3 ++ b2 ++ b1 ++ b0

/-- R37: byte `k` of a word, `k` counted from the lowest address. -/
def byteOfWord (w : InstrWord) (k : Nat) : Byte := w.extractLsb' (8 * k) 8

/-- The four bytes of a word in memory order (R37). -/
def bytesOfWord (w : InstrWord) : List Byte :=
  [byteOfWord w 0, byteOfWord w 1, byteOfWord w 2, byteOfWord w 3]

/-- The decoder on bytes: every instruction is four bytes long (R53), the rest is handed back. -/
def decodeBytes : List Byte → Except Reject (Instr × List Byte)
  | b0 :: b1 :: b2 :: b3 :: rest =>
    match decode (wordOfBytes b0 b1 b2 b3) with
    | .instr i => .ok (i, rest)
    | .unknown w => .error (.unknownWord w)
  | short => .error (.truncated short)

/-- The word of the opcode table's numbering: the low `nbits` bits of `w`, the rest zero. -/
def tableWord (nbits w : Nat) : InstrWord := BitVec.ofNat 32 (w % 2 ^ nbits)

/-- The instruction the decoder reads from the bytes of a table word. -/
def decodeTableWord (nbits w : Nat) : Option Instr :=
  match decodeBytes (bytesOfWord (tableWord nbits w)) with
  | .ok (i, _) => some i
  | .error _ => none

/-- The register number an operand assembles to: an omitted operand and `XZR` are 31 (R15, R66). -/
def registerNumber : Option XReg → BitVec 5
  | some (.x n) => BitVec.ofNat 5 n
  | some .xzr => 31#5
  | none => 31#5

/-- The assembler (R66, R67). The `SYS` spelling names this instruction only with the selectors of
R54; any other is outside the admitted subset (R7). -/
def Asm.assemble (a : Asm) : Option Instr :=
  if a.wellFormed then
    match a with
    | .tlbiRvale1is xt => some (.tlbiRvale1is (registerNumber xt))
    | .sys op1 cn cm op2 xt =>
      if op1 = 0 ∧ cn = 8 ∧ cm = 2 ∧ op2 = 5 then some (.tlbiRvale1is (registerNumber xt))
      else none
  else none

/-- The disassembler prints the `TLBI` form (R67). DESIGN CHOICE: register number 31 is printed as
`XZR`, not as an omitted operand (log 12). -/
def disassemble : Instr → Asm
  | .tlbiRvale1is t => .tlbiRvale1is (some (if t = 31#5 then .xzr else .x t.toNat))

end Sys2Proof
end

