-- ==== Sys2Proof/Machine/Memory.lean ====
section
/-! DEFINITION. Byte memory: the program text of a PE (`20_memory.md` R37, R41, R50), as a list of
(address, byte) pairs with addresses strictly rising below `2^64`. An address that is not listed
holds nothing, so reading it gives no byte (log 11). -/

namespace Sys2Proof.Machine

/-- Bytes by address. -/
abbrev Memory := List Host.Cell

/-- The canonical form: addresses strictly rising, each below `2^64` (R35). -/
def Memory.wf (m : Memory) : Bool :=
  decide (m.Pairwise fun x y => x.1 < y.1) && m.all fun c => decide (c.1 < 2 ^ 64)

/-- The byte at an address, or nothing where none was written. -/
def Memory.read : Memory → Nat → Option Byte
  | [], _ => none
  | (k, c) :: m, a => if a = k then some c else Memory.read m a

/-- Writing one byte at a key, the list kept in order. -/
def Memory.insert : Memory → Nat → Byte → Memory
  | [], a, b => [(a, b)]
  | (k, c) :: m, a, b =>
    if a < k then (a, b) :: (k, c) :: m
    else if a = k then (a, b) :: m
    else (k, c) :: Memory.insert m a b

/-- Writing one byte at a 64-bit address. -/
def Memory.write (m : Memory) (a : Word) (b : Byte) : Memory := m.insert a.toNat b

/-- Writing bytes at consecutive addresses. -/
def Memory.writeBytes : Memory → Word → List Byte → Memory
  | m, _, [] => m
  | m, a, b :: bs => Memory.writeBytes (m.write a b) (a + 1) bs

end Sys2Proof.Machine
end

