-- ==== Sys2Proof/Config.lean ====
section
/-! DEFINITION. What an implementation fixes (parameters P1 to P14 of `00_scope.md` R8), the
vocabulary those parameters and the free values range over, and the free values themselves. A free
value is `opaque` and has no body: nothing in Lean can prove a value of it, so whatever is proved
holds for every choice. -/

namespace Sys2Proof

/-- The four Exception levels `PSTATE.EL` takes (`10_state.md` R17, `60_exceptions.md` R109). -/
inductive EL where
  | el0 | el1 | el2 | el3
  deriving DecidableEq, Repr, Inhabited

/-- The two Security states (`00_scope.md` R12). -/
inductive SecState where
  | secure | nonSecure
  deriving DecidableEq, Repr, Inhabited

/-- Translation regimes an entry may belong to: EL1&0, EL2&0, or any other
(`10_state.md` R30, `20_memory.md` R42). -/
inductive Regime where
  | el10 | el20 | other
  deriving DecidableEq, Repr, Inhabited

/-- Translation granules (`20_memory.md` R43, `90_conflicts.md` C7). -/
inductive Granule where
  | g4K | g16K | g64K
  deriving DecidableEq, Repr, Inhabited

/-- Width of an ASID or a VMID: 8 or 16 bits (P5, P6, P9). -/
inductive TagWidth where
  | bits8 | bits16
  deriving DecidableEq, Repr, Inhabited

/-- A cached copy of a translation table entry: exactly the attributes the matching conditions name,
and an opaque payload no rule reads (`10_state.md` R30). `asid` and `vmid` are held zero-extended
to 16 bits. -/
structure TlbEntry where
  stage1 : Bool
  final : Bool
  level : Fin 4
  global : Bool
  asid : BitVec 16
  vmid : BitVec 16
  regime : Regime
  sec : SecState
  granule : Granule
  base : Nat
  size : Nat
  payload : Nat
  deriving DecidableEq, Repr, Inhabited

/-- A parameter that "may depend on state" (P4, P6, P13): either one value for the whole system, or
open in every state, where a free value of `Config` decides (assumption log 17). -/
inductive Setting (α : Type) where
  | fixed (v : α)
  | perState
  deriving DecidableEq, Repr, Inhabited

/-- P10 `BaseExt`, the address bits above the BaseADDR field: the two candidates of
`40_tlbi_rvale1is.md` R77, or any other function of field and granule (log 16). -/
inductive BaseExt where
  | sign | zero | free
  deriving DecidableEq, Repr, Inhabited

/-- P11 `RangeMatch` (`90_conflicts.md` C1, decision D8). -/
inductive RangeMatch where
  | overlap | contained
  deriving DecidableEq, Repr, Inhabited

/-- P12 `CompletionModel` (`20_memory.md` R48, decision D11). -/
inductive CompletionModel where
  | pending | immediate
  deriving DecidableEq, Repr, Inhabited

/-- The parameters of `00_scope.md` R8, but for P8 (agents and domains), which each agent's record
carries. -/
structure Params where
  /-- P1 `HaveTLBIRange`: ARMv8.4-TLBI is implemented. -/
  haveTlbiRange : Bool
  /-- P2 `HaveEL2`. -/
  haveEl2 : Bool
  /-- P3 `HaveEL3`. -/
  haveEl3 : Bool
  /-- P4 `EL2IsAArch32`. -/
  el2IsAArch32 : Setting Bool
  /-- P5 `ASIDBitsImpl`. -/
  asidBitsImpl : TagWidth
  /-- P6 `ASIDBitsInUse`. -/
  asidBitsInUse : Setting TagWidth
  /-- P7 `Granules`: no rule needs its value (`40_tlbi_rvale1is.md` R85; log 19). -/
  granules : List Granule
  /-- P9 `VMIDBits`. -/
  vmidBits : TagWidth
  /-- P10 `BaseExt`. -/
  baseExt : BaseExt
  /-- P11 `RangeMatch`. -/
  rangeMatch : RangeMatch
  /-- P12 `CompletionModel`. -/
  completion : CompletionModel
  /-- P13 `TLBFill`: `fixed true` admits every entry, `fixed false` is FillPolicy(none). -/
  tlbFill : Setting Bool
  /-- P14 `SecStateNoEL3`. -/
  secStateNoEl3 : SecState
  deriving DecidableEq, Repr, Inhabited

/-- The two kinds of agent that hold a TLB (`10_state.md` R28). -/
inductive AgentSort where
  | pe | systemMmu
  deriving DecidableEq, Repr, Inhabited

/-- One agent of P8: its kind, and the number of its Inner Shareable domain. `SameISDomain` is
equality of these numbers (`60_exceptions.md` R113; log 10). -/
structure AgentDecl where
  sort : AgentSort
  domain : Nat
  deriving DecidableEq, Repr, Inhabited

/-- One step of one agent, agents being numbered by their place in the system
(`60_exceptions.md` R112). The draw of a step stands in it: `also` lists what a perform removes
beside the required entries (`40_tlbi_rvale1is.md` R91). -/
inductive Turn where
  /-- The instruction step of PE `pe` (R90, R125). -/
  | instruction (pe : Nat)
  /-- Agent `agent` performs its pending request number `request` (R91). -/
  | perform (agent : Nat) (request : Nat) (also : List TlbEntry)
  /-- `evict(a, e)` (`20_memory.md` R51). -/
  | evict (agent : Nat) (entry : TlbEntry)
  /-- `fill(a, e)` (`20_memory.md` R51). -/
  | fill (agent : Nat) (entry : TlbEntry)
  deriving DecidableEq, Repr, Inhabited

/-- FREE: the parameters of the system that leaves reset (log 2). -/
opaque Config.params : Params

/-- FREE: the agents of the system beside agent 0, which is a PE (P8; log 10). -/
opaque Config.otherAgents : List AgentDecl

/-- FREE: the TLB contents of agent `a` when a run starts (`70_reset_and_hazards.md` R116; log 9). -/
opaque Config.tlbAtReset (a : Nat) : List TlbEntry

/-- FREE: whose step follows, at draw `n` (`60_exceptions.md` R112: "the model fixes no schedule";
log 3). -/
opaque Config.schedule (n : Nat) : Turn

/-- FREE: P4 in a system where it depends on the state, at draw `n` for PE `p` (log 17). -/
opaque Config.el2IsAArch32 (n p : Nat) : Bool

/-- FREE: P6 in a system where it depends on the state, at draw `n` for PE `p` (log 17). -/
opaque Config.asidBitsInUse (n p : Nat) : TagWidth

/-- FREE: P13 in a system where it depends on the state, at draw `n` for agent `a` (log 17). -/
opaque Config.tlbFill (n a : Nat) (e : TlbEntry) : Bool

/-- FREE: the 27 bits above the 37-bit BaseADDR field, when P10 is neither `sign` nor `zero`
(`40_tlbi_rvale1is.md` R77; log 16). -/
opaque Config.baseHigh (g : Granule) (baf : BitVec 37) : BitVec 27

/-- FREE: what else goes at agent `a` when an issue performs its request at once (P12 `immediate`,
R90, R91), at draw `n` (log 15). -/
opaque Config.alsoRemoved (n a : Nat) : List TlbEntry

end Sys2Proof
end

