-- ==== Sys2Proof/Machine/Params.lean ====
section
/-! DEFINITION. What the parameters of `00_scope.md` R8 say of values: which Exception levels exist,
and which tags fit their width. -/

namespace Sys2Proof

/-- Which Exception levels are implemented: EL2 and EL3 may be absent (`60_exceptions.md` R109). -/
def Params.implements (c : Params) : EL → Bool
  | .el0 => true
  | .el1 => true
  | .el2 => c.haveEl2
  | .el3 => c.haveEl3

/-- The highest implemented Exception level (`70_reset_and_hazards.md` R117; log 8). -/
def Params.highestEl (c : Params) : EL :=
  if c.haveEl3 then .el3 else if c.haveEl2 then .el2 else .el1

/-- The number of bits of a tag width. -/
def TagWidth.bits : TagWidth → Nat
  | .bits8 => 8
  | .bits16 => 16

/-- How many ASID bits are in use (P6), where the implementation supports 8 or 16 (P5): with 8
supported, 8 are (log 18). -/
def Params.asidBits (c : Params) : Setting TagWidth :=
  match c.asidBitsImpl with
  | .bits8 => .fixed .bits8
  | .bits16 => c.asidBitsInUse

/-- The width an entry's ASID fits (`10_state.md` R30): 8 where only 8 bits are ever in use; where
that depends on the state, an entry may be of a context that uses 16 (log 20). -/
def Params.entryAsidBits (c : Params) : TagWidth :=
  match c.asidBits with
  | .fixed w => w
  | .perState => .bits16

/-- A tag held zero-extended in 16 bits fits its width (`10_state.md` R26, R30; log 20). -/
def TagWidth.fits (w : TagWidth) (v : BitVec 16) : Bool := decide (v.toNat < 2 ^ w.bits)

end Sys2Proof
end

