-- ==== Sys2Proof/Machine/Tlb.lean ====
section
/-! DEFINITION. A TLB as the finite set of entries of `10_state.md` R29: a list without repeats,
whose order no rule reads (log 22). -/

namespace Sys2Proof

/-- An entry record of R30: `0 < size`, `base + size <= 2^64`, `vmid` of `VMIDBits` bits, and an
`asid` narrower than 16 bits zero-extended. -/
def TlbEntry.wf (c : Params) (e : TlbEntry) : Bool :=
  decide (0 < e.size) && decide (e.base + e.size ≤ 2 ^ 64) && c.vmidBits.fits e.vmid
    && c.entryAsidBits.fits e.asid

/-- `Translates(e, va)` (`10_state.md` R31). -/
def TlbEntry.translates (e : TlbEntry) (va : Nat) : Bool :=
  decide (e.base ≤ va) && decide (va < e.base + e.size)

namespace Machine

/-- The contents of one agent's TLBs. -/
abbrev Tlb := List TlbEntry

/-- A finite set of entry records: no repeats, every entry well formed. -/
def Tlb.wf (c : Params) (t : Tlb) : Bool := decide t.Nodup && t.all (TlbEntry.wf c)

/-- Adding an entry to the set. -/
def Tlb.add (t : Tlb) (e : TlbEntry) : Tlb := if t.contains e then t else e :: t

/-- Taking one entry out of the set. -/
def Tlb.without (t : Tlb) (e : TlbEntry) : Tlb := t.filter fun x => x != e

/-- The well-formed entries of a list, as a set. -/
def Tlb.ofList (c : Params) (l : List TlbEntry) : Tlb :=
  l.foldr (fun e t => if e.wf c then Tlb.add t e else t) []

end Machine
end Sys2Proof
end

