-- ==== Sys2Proof/Machine/State.lean ====
section
/-! DEFINITION. The state of the machine as plain data (`10_state.md` R13), why a step can stop, and
the state that leaves reset (R34). -/

namespace Sys2Proof.Machine

/-- The fields of SCR_EL3 the instruction reads; `true` is 1 (`10_state.md` R19 to R21). -/
structure ScrEl3 where
  ns : Bool
  eel2 : Bool
  fgten : Bool
  deriving DecidableEq, Repr, Inhabited

/-- The fields of HCR_EL2 the instruction reads (`10_state.md` R22 to R24). -/
structure HcrEl2 where
  e2h : Bool
  tge : Bool
  ttlb : Bool
  ttlbis : Bool
  deriving DecidableEq, Repr, Inhabited

/-- The field of HFGITR_EL2 the instruction reads (`10_state.md` R25). -/
structure HfgitrEl2 where
  tlbirvale1is : Bool
  deriving DecidableEq, Repr, Inhabited

/-- The two abnormal outcomes of the instruction (`60_exceptions.md` R97 to R99). -/
inductive FaultReason where
  | undefined
  | systemAccessTrap (target : EL) (code : Nat)
  deriving DecidableEq, Repr, Inhabited

/-- What `raise` records: the reason with its arguments, and the `pc` and word of the instruction
(`60_exceptions.md` R100). -/
structure FaultRecord where
  reason : FaultReason
  pc : Word
  word : InstrWord
  deriving DecidableEq, Repr, Inhabited

/-- `CodeAt(p, base, words)`: where the program text of a PE stands and how many words it has
(`70_reset_and_hazards.md` R118, R125). -/
structure Program where
  base : Word
  count : Nat
  deriving DecidableEq, Repr, Inhabited

/-- The state of one PE (`10_state.md` R13). -/
structure Pe where
  x : Vector Word 31
  pc : Word
  el : EL
  scr : ScrEl3
  hcr : HcrEl2
  hfgitr : HfgitrEl2
  currentVmid : BitVec 16
  fault : Option FaultRecord
  program : Option Program
  text : Memory
  deriving DecidableEq, Repr, Inhabited

/-- A predicate on entries as data: what `Required` reads of the state, frozen when the instruction
executes (`40_tlbi_rvale1is.md` R89; log 14). -/
structure Selector where
  /-- `TSec` (R79). -/
  sec : SecState
  /-- `TReg` (R80). -/
  regime : Regime
  /-- `VCond` (R80): the VMID to compare with, if one is compared. -/
  vmid : Option (BitVec 16)
  /-- R76. -/
  granule : Granule
  /-- `LCond` (R81): the level named by the effective TTL, if one is. -/
  level : Option (Fin 4)
  /-- R75. -/
  asid : BitVec 16
  /-- `AsidOK` (R82). -/
  asidOk : Bool
  /-- `Base` (R77). -/
  base : Nat
  /-- `End` (R78). -/
  limit : Nat
  /-- P11. -/
  rangeMatch : RangeMatch
  /-- R88: on a System MMU only entries with VMID 0 are required. -/
  vmidZeroOnly : Bool
  deriving DecidableEq, Repr, Inhabited

/-- An invalidation request (`10_state.md` R32): issuer, required predicate (`none` requires
nothing), and the model's own number of the execution that issued it (log 13). -/
structure Request where
  id : Nat
  issuer : Nat
  required : Option Selector
  deriving DecidableEq, Repr, Inhabited

/-- A PE with its state, or a System MMU, which executes nothing (`10_state.md` R28). -/
inductive AgentKind where
  | pe (core : Pe)
  | systemMmu
  deriving DecidableEq, Repr, Inhabited

/-- An agent that holds a TLB (`60_exceptions.md` R112). -/
structure Agent where
  kind : AgentKind
  domain : Nat
  tlb : Tlb
  pending : List Request
  deriving DecidableEq, Repr, Inhabited

/-- Why the machine stops: a step the spec does not give. None of these is an exception of the
hardware: `Undefined` and `SystemAccessTrap` are next states with a fault record (R103). -/
inductive Fault where
  /-- Raised by a meaning when the turn is not the instruction step of an existing PE. Safe: no
  state of the spec's machine executes an instruction without a PE. -/
  | noExecutingPe
  /-- Raised by a meaning and by the step when the PE whose turn it is has a fault recorded: "a PE
  whose fault record is set has no further step" (R103). Safe: the machine stops (log 5). -/
  | peStopped (record : FaultRecord)
  /-- Raised by the step when a byte of the program's region holds nothing. Safe: a program of the
  spec has all its words (R125; log 11). -/
  | textUnwritten (address : Nat)
  deriving DecidableEq, Repr

/-- Why the model refuses (`70_reset_and_hazards.md` R126). All but the first are recorded as the
mark on the state by the step that refuses, and are the outcome of a later step that would refuse
again. Safe: the model stops where the hardware does something the sources do not give (log 6). -/
inductive Refusal where
  /-- Answered by `exec` for an instruction that has no meaning yet; no arm does. -/
  | notModelled (mnemonic : String)
  /-- By the step: the word at `pc` does not match R55 (R7). -/
  | unknownWord (word : InstrWord)
  /-- By the step: `pc` is not a multiple of 4 (R39). -/
  | misalignedPc (pc : Word)
  /-- By the step: `pc` is outside `base <= pc <= end(p)` (R126). -/
  | pcOutsideProgram (pc : Word)
  /-- By the step: `end(p)` would exceed `2^64` (R126). -/
  | programPastTop
  /-- By the meaning: the instruction is executed at `pc = 2^64 - 4` (R16). -/
  | noSuccessor
  deriving DecidableEq, Repr

/-- The state of the system. -/
structure State where
  /-- The parameters of R8, an argument of the model that no step changes (log 1). -/
  params : Params
  /-- The agents, numbered by place. -/
  agents : List Agent
  /-- Whose step is next (log 3). -/
  turn : Turn
  /-- How many draws have been made: the argument of the free values (log 3). -/
  draws : Nat
  /-- The number of the next request (log 13). -/
  nextRequest : Nat
  /-- The refusal mark (R126). -/
  refusal : Option Refusal
  deriving DecidableEq, Repr

/-- A PE right after reset. The spec gives no value (R34): logs 7 and 8 name these. -/
def Pe.reset (c : Params) : Pe where
  x := Vector.replicate 31 0#64
  pc := 0#64
  el := c.highestEl
  scr := ⟨false, false, false⟩
  hcr := ⟨false, false, false, false⟩
  hfgitr := ⟨false⟩
  currentVmid := 0#16
  fault := none
  program := none
  text := []

/-- An agent right after reset: its TLB is any finite set of entries (R116; log 9), nothing pends
(R34). -/
def Agent.reset (c : Params) (a : Nat) (d : AgentDecl) : Agent where
  kind :=
    match d.sort with
    | .pe => .pe (Pe.reset c)
    | .systemMmu => .systemMmu
  domain := d.domain
  tlb := Tlb.ofList c (Config.tlbAtReset a)
  pending := []

/-- The agents from place `a` on, right after reset. -/
def agentsAtReset (c : Params) : Nat → List AgentDecl → List Agent
  | _, [] => []
  | a, d :: ds => Agent.reset c a d :: agentsAtReset c (a + 1) ds

/-- The parameters at reset: open, but for P11 and P12, whose values R8 names. -/
def paramsAtReset : Params :=
  { Config.params with rangeMatch := .overlap, completion := .pending }

/-- The machine right after reset (R34, R115): agent 0 is a PE of domain 0, the other agents are
free, nothing pends, no fault and no refusal is recorded, and no program is loaded. -/
def State.reset : State where
  params := paramsAtReset
  agents := agentsAtReset paramsAtReset 0 (⟨.pe, 0⟩ :: Config.otherAgents)
  turn := .instruction 0
  draws := 0
  nextRequest := 0
  refusal := none

end Sys2Proof.Machine
end

