-- ==== Sys2Proof/Machine/Ops.lean ====
section
/-! DEFINITION. The named operations over the state: looking agents up, reading a register, raising,
refusing, fetching, passing the turn on, and loading a program from outside the machine. -/

namespace Sys2Proof.Machine

/-- The PE an agent is, if it is one (`10_state.md` R28). -/
def AgentKind.pe? : AgentKind → Option Pe
  | .pe core => some core
  | .systemMmu => none

/-- Changing the PE an agent is; a System MMU has none to change. -/
def AgentKind.mapPe (f : Pe → Pe) : AgentKind → AgentKind
  | .pe core => .pe (f core)
  | .systemMmu => .systemMmu

/-- The same, inside the agent's record. -/
def Agent.mapPe (f : Pe → Pe) (ag : Agent) : Agent := { ag with kind := ag.kind.mapPe f }

/-- PE number `p`, if that agent exists and is a PE. -/
def State.pe? (s : State) (p : Nat) : Option Pe :=
  match s.agents[p]? with
  | some ag => ag.kind.pe?
  | none => none

/-- Changing one agent. -/
def State.modifyAgent (s : State) (a : Nat) (f : Agent → Agent) : State :=
  { s with agents := s.agents.modify a f }

/-- Changing one PE. -/
def State.modifyPe (s : State) (p : Nat) (f : Pe → Pe) : State :=
  s.modifyAgent p (Agent.mapPe f)

/-- `SameISDomain` (P8; `10_state.md` R28, `60_exceptions.md` R113): both agents exist and have one
domain number. -/
def State.sameDomain (s : State) (p a : Nat) : Bool :=
  match s.agents[p]?, s.agents[a]? with
  | some x, some y => x.domain == y.domain
  | _, _ => false

/-- `X[t]`; register number 31 reads as zero (`10_state.md` R14, R15, `30_encoding.md` R56). -/
def Pe.readX (pe : Pe) (t : BitVec 5) : Word :=
  if h : t.toNat < 31 then pe.x[t.toNat] else 0#64

/-- Why PE `pe` cannot execute: a PE with a fault recorded has no further step (R103). -/
def Pe.stopped (pe : Pe) : Option Fault :=
  match pe.fault with
  | some r => some (.peStopped r)
  | none => none

/-- The PE whose instruction step it is, or why none executes. -/
def State.executing (s : State) : Except Fault (Nat × Pe) :=
  match s.turn with
  | .instruction p =>
    match s.pe? p with
    | none => .error .noExecutingPe
    | some pe =>
      match pe.stopped with
      | some f => .error f
      | none => .ok (p, pe)
  | _ => .error .noExecutingPe

/-- `raise` (`60_exceptions.md` R97, R98, R103): the one exception entry of the machine. It sets the
PE's fault record, with the `pc` and word of the instruction, and leaves `pc` and everything else as
they are. There is no return (R105). -/
def State.raise (s : State) (p : Nat) (reason : FaultReason) (word : InstrWord) : State :=
  s.modifyPe p fun pe => { pe with fault := some ⟨reason, pe.pc, word⟩ }

/-- A refusal sets the mark, which no step clears (`70_reset_and_hazards.md` R126). Where the mark
is already set there is no further step to take (log 6). -/
def State.refuse (s : State) (r : Refusal) : Host.Outcome State Fault Refusal :=
  match s.refusal with
  | none => .next { s with refusal := some r }
  | some _ => .refused r

/-- The next step's turn is drawn (`60_exceptions.md` R112: any enabled step of any agent may be
taken next). -/
def State.pass (s : State) : State :=
  { s with turn := Config.schedule s.draws, draws := s.draws + 1 }

/-- A step ends by passing the turn on; a stop has no next turn. -/
def passing : Host.Outcome State Fault Refusal → Host.Outcome State Fault Refusal
  | .next s => .next s.pass
  | .fault r => .fault r
  | .refused r => .refused r

/-- The address after the last word of a program, `end(p)` (R125), an unbounded integer. -/
def Program.limit (c : Program) : Nat := c.base.toNat + 4 * c.count

/-- What a PE finds where its next instruction should be. -/
inductive Fetched where
  /-- No program, or `pc == end(p)`: no further instruction step (R125). -/
  | done
  /-- The PE is refused (R126). -/
  | refuse (r : Refusal)
  /-- A byte of the program's region holds nothing (log 11). -/
  | unwritten (address : Nat)
  /-- The word at `pc`. -/
  | word (w : InstrWord)
  deriving DecidableEq, Repr

/-- The four bytes at `pc`, least significant first (`20_memory.md` R37). -/
def Pe.fetchWord (pe : Pe) : Fetched :=
  match pe.text.read pe.pc.toNat with
  | none => .unwritten pe.pc.toNat
  | some b0 =>
    match pe.text.read (pe.pc.toNat + 1) with
    | none => .unwritten (pe.pc.toNat + 1)
    | some b1 =>
      match pe.text.read (pe.pc.toNat + 2) with
      | none => .unwritten (pe.pc.toNat + 2)
      | some b2 =>
        match pe.text.read (pe.pc.toNat + 3) with
        | none => .unwritten (pe.pc.toNat + 3)
        | some b3 => .word (wordOfBytes b0 b1 b2 b3)

/-- Fetching (`20_memory.md` R37, R39; `70_reset_and_hazards.md` R125, R126). -/
def Pe.fetch (pe : Pe) : Fetched :=
  match pe.program with
  | none => .done
  | some c =>
    if 2 ^ 64 < c.limit then .refuse .programPastTop
    else if pe.pc.toNat % 4 ≠ 0 then .refuse (.misalignedPc pe.pc)
    else if pe.pc.toNat < c.base.toNat ∨ c.limit < pe.pc.toNat then
      .refuse (.pcOutsideProgram pe.pc)
    else if pe.pc.toNat = c.limit then .done
    else pe.fetchWord

/-- The bytes of a program text, in memory order (R37). -/
def textBytes (words : List InstrWord) : List Byte := words.flatMap bytesOfWord

/-- Loading `words` at `base` into a PE from outside the machine, `pc` at its first word
(`CodeAt(p, base, words)`, R118). -/
def Pe.load (pe : Pe) (base : Word) (words : List InstrWord) : Pe :=
  { pe with
    pc := base
    program := some ⟨base, words.length⟩
    text := pe.text.writeBytes base (textBytes words) }

/-- Loading a program into PE `p` (R118). -/
def State.loadProgram (s : State) (p : Nat) (base : Word) (words : List InstrWord) : State :=
  s.modifyPe p fun pe => pe.load base words

end Sys2Proof.Machine
end

