-- ==== Sys2Proof/Machine/Access.lean ====
section
/-! DEFINITION. The access check: presence, Exception level, and the three traps to EL2
(`10_state.md` R27, `40_tlbi_rvale1is.md` R70 to R73, `60_exceptions.md` R101). -/

namespace Sys2Proof.Machine

/-- `EL2Enabled()` (`10_state.md` R27; the predicate is the spec's general knowledge, log 24). -/
def el2Enabled (c : Params) (pe : Pe) : Bool :=
  c.haveEl2 && (!c.haveEl3 || pe.scr.ns || pe.scr.eel2)

/-- `ELUsingAArch32(EL2)` (P4, R27; log 17). -/
def el2UsingAArch32 (s : State) (p : Nat) : Bool :=
  match s.params.el2IsAArch32 with
  | .fixed b => b
  | .perState => Config.el2IsAArch32 s.draws p

/-- `g` of R73: EL2 is enabled and can trap. -/
def el2CanTrap (s : State) (p : Nat) (pe : Pe) : Bool :=
  el2Enabled s.params pe && !el2UsingAArch32 s p

/-- Trap condition (a) of R72, `HCR_EL2.TTLB`. -/
def trapTtlb (s : State) (p : Nat) (pe : Pe) : Bool := el2CanTrap s p pe && pe.hcr.ttlb

/-- Trap condition (b) of R72, `HCR_EL2.TTLBIS`. -/
def trapTtlbis (s : State) (p : Nat) (pe : Pe) : Bool := el2CanTrap s p pe && pe.hcr.ttlbis

/-- Trap condition (c) of R72, `HFGITR_EL2.TLBIRVALE1IS`. -/
def trapFineGrained (s : State) (p : Nat) (pe : Pe) : Bool :=
  el2CanTrap s p pe && (!s.params.haveEl3 || pe.scr.fgten) && pe.hfgitr.tlbirvale1is

/-- `AArch64.SystemAccessTrap(EL2, 0x18)` (R98). -/
def el2Trap : FaultReason := .systemAccessTrap .el2 0x18

/-- `Access` of R73: what is raised, or `none` where the operation is performed. -/
def access (s : State) (p : Nat) (pe : Pe) : Option FaultReason :=
  if !s.params.haveTlbiRange then some .undefined
  else
    match pe.el with
    | .el0 => some .undefined
    | .el1 =>
      if trapTtlb s p pe then some el2Trap
      else if trapTtlbis s p pe then some el2Trap
      else if trapFineGrained s p pe then some el2Trap
      else none
    | .el2 => none
    | .el3 => none

end Sys2Proof.Machine
end

