-- ==== Sys2Proof/Machine/Operands.lean ====
section
/-! DEFINITION. The 64-bit operand value: its fields, granule, base, range, effective TTL and the
UNPREDICTABLE cases (`30_encoding.md` R57 to R65, `40_tlbi_rvale1is.md` R75 to R78, R81, R84). -/

namespace Sys2Proof.Machine

/-- `asid = v[63:48]` (R75). -/
def operandAsid (v : Word) : BitVec 16 := v.extractLsb' 48 16

/-- `tg = v[47:46]` (R75). -/
def operandTg (v : Word) : BitVec 2 := v.extractLsb' 46 2

/-- `scale = uint(v[45:44])` (R75). -/
def operandScale (v : Word) : Nat := (v.extractLsb' 44 2).toNat

/-- `num = uint(v[43:39])` (R75). -/
def operandNum (v : Word) : Nat := (v.extractLsb' 39 5).toNat

/-- `ttl = v[38:37]` (R75). -/
def operandTtl (v : Word) : BitVec 2 := v.extractLsb' 37 2

/-- `baf = v[36:0]` (R75). -/
def operandBaf (v : Word) : BitVec 37 := v.extractLsb' 0 37

/-- The granule a TG value names; `0b00` is Reserved and names none (R59, R76, R85). -/
def granuleOf (tg : BitVec 2) : Option Granule :=
  if tg = 0b01#2 then some .g4K
  else if tg = 0b10#2 then some .g16K
  else if tg = 0b11#2 then some .g64K
  else none

/-- `gs`, the number of address bits inside a granule (R76). -/
def granuleShift : Granule → Nat
  | .g4K => 12
  | .g16K => 14
  | .g64K => 16

/-- `GSize`, the bytes of a granule (R76). -/
def granuleSize (g : Granule) : Nat := 2 ^ granuleShift g

/-- The 27 bits `BaseExt` puts above the field (P10, R77): copies of `baf[36]`, zeros, or free. -/
def baseHighBits (x : BaseExt) (g : Granule) (baf : BitVec 37) : BitVec 27 :=
  match x with
  | .sign => if baf.getLsbD 36 then BitVec.allOnes 27 else 0#27
  | .zero => 0#27
  | .free => Config.baseHigh g baf

/-- `Base` as a 64-bit address: the field at bits `gs+36 : gs`, zeros below (R77). -/
def baseAddress (x : BaseExt) (g : Granule) (baf : BitVec 37) : Word :=
  ((baseHighBits x g baf ++ baf : BitVec 64)) <<< granuleShift g

/-- `Size = (NUM + 1) * 2^(5*SCALE + 1) * GSize`, an unbounded integer (R78). -/
def rangeSize (g : Granule) (scale num : Nat) : Nat :=
  (num + 1) * 2 ^ (5 * scale + 1) * granuleSize g

/-- `Base` of an operand (R77). -/
def operandBase (c : Params) (g : Granule) (v : Word) : Nat :=
  (baseAddress c.baseExt g (operandBaf v)).toNat

/-- `Size` of an operand (R78). -/
def operandSize (g : Granule) (v : Word) : Nat := rangeSize g (operandScale v) (operandNum v)

/-- `End` of an operand, not reduced modulo `2^64` (R78). -/
def operandEnd (c : Params) (g : Granule) (v : Word) : Nat := operandBase c g v + operandSize g v

/-- `ttl'` (R81): `0b01` with the 16K granule is treated as `0b00`. -/
def effectiveTtl (g : Granule) (ttl : BitVec 2) : BitVec 2 :=
  if ttl = 0b01#2 ∧ g = .g16K then 0b00#2 else ttl

/-- The level an effective TTL names; `0b00` names none (R62, R81). -/
def levelOf (ttl : BitVec 2) : Option (Fin 4) :=
  if ttl = 0b01#2 then some 1
  else if ttl = 0b10#2 then some 2
  else if ttl = 0b11#2 then some 3
  else none

/-- How many low bits of the field must be zero for the raw TTL, where R84 has a row for it. -/
def alignedBits : Granule → BitVec 2 → Option Nat
  | .g4K, ttl => if ttl = 0b01#2 then some 18 else if ttl = 0b10#2 then some 9 else none
  | .g16K, ttl => if ttl = 0b10#2 then some 11 else none
  | .g64K, ttl => if ttl = 0b01#2 then some 26 else if ttl = 0b10#2 then some 13 else none

/-- `Unpred(v)` (R84): the low bits of BaseADDR that the named level needs zero are not zero. -/
def unpredictableRange (g : Granule) (v : Word) : Bool :=
  match alignedBits g (operandTtl v) with
  | some k => decide ((operandBaf v).toNat % 2 ^ k ≠ 0)
  | none => false

/-- The RES0 bits `v[63:56]` (`30_encoding.md` R64). -/
def operandUpperAsid (v : Word) : BitVec 8 := v.extractLsb' 56 8

end Sys2Proof.Machine
end

