-- ==== Sys2Proof/Machine/Select.lean ====
section
/-! DEFINITION. Which entries an execution requires each agent to drop (`40_tlbi_rvale1is.md` R79 to
R89). -/

namespace Sys2Proof.Machine

/-- `TSec` (R79). -/
def targetSecurity (c : Params) (pe : Pe) : SecState :=
  if c.haveEl3 then (if pe.scr.ns then .nonSecure else .secure) else c.secStateNoEl3

/-- `HCR_EL2.{E2H, TGE} == {1, 1}` with EL2 enabled (R80). -/
def targetsEl20 (c : Params) (pe : Pe) : Bool :=
  el2Enabled c pe && (pe.hcr.e2h && pe.hcr.tge)

/-- `TReg` (R80). -/
def targetRegime (c : Params) (pe : Pe) : Regime :=
  if targetsEl20 c pe then .el20 else .el10

/-- `VCond` (R80): the VMID is compared when EL2 is enabled and the EL1&0 regime is the target. -/
def targetVmid (c : Params) (pe : Pe) : Option (BitVec 16) :=
  if el2Enabled c pe && !targetsEl20 c pe then some pe.currentVmid else none

/-- `NoteApplies` (R87). -/
def noteApplies (c : Params) (pe : Pe) : Bool :=
  targetSecurity c pe == .secure && targetRegime c pe == .el10

/-- `ASIDBitsInUse` (P6), never more than the implementation supports (P5; logs 17, 18). -/
def asidBitsInUse (s : State) (p : Nat) : TagWidth :=
  match s.params.asidBits with
  | .fixed w => w
  | .perState => Config.asidBitsInUse s.draws p

/-- `AsidOK` (R82, `30_encoding.md` R64). -/
def asidOk (s : State) (p : Nat) (v : Word) : Bool :=
  asidBitsInUse s p == .bits16 || operandUpperAsid v == 0#8

/-- The exemption of R87: nothing is required of another PE whose `SCR_EL3.EEL2` differs, when the
target is Secure EL1&0. -/
def exemptPe (c : Params) (p : Nat) (pe : Pe) (a : Nat) (other : Pe) : Bool :=
  noteApplies c pe && a != p && c.haveEl3 && other.scr.eel2 != pe.scr.eel2

/-- Whether an agent owes anything at all: a PE unless it is exempt (R87), a System MMU only where
the Note applies (R88). -/
def agentOwes (c : Params) (p : Nat) (pe : Pe) (a : Nat) (kind : AgentKind) : Bool :=
  match kind with
  | .pe other => !exemptPe c p pe a other
  | .systemMmu => noteApplies c pe

/-- Whether R88 narrows an agent's part to entries with VMID 0. -/
def vmidZeroOnly : AgentKind → Bool
  | .pe _ => false
  | .systemMmu => true

/-- The conditions of `Match` (R83) and `AgentCond` (R89) for the granule the operand names, read
from the state when the instruction executes. -/
def selectorFor (s : State) (p : Nat) (pe : Pe) (v : Word) (g : Granule) (kind : AgentKind) :
    Selector where
  sec := targetSecurity s.params pe
  regime := targetRegime s.params pe
  vmid := targetVmid s.params pe
  granule := g
  level := levelOf (effectiveTtl g (operandTtl v))
  asid := operandAsid v
  asidOk := asidOk s p v
  base := operandBase s.params g v
  limit := operandEnd s.params g v
  rangeMatch := s.params.rangeMatch
  vmidZeroOnly := vmidZeroOnly kind

/-- `Required(s, p, v, a)` (R89) as data, for agent number `a` with kind `kind`: nothing outside the
domain (R86), with a Reserved TG (R85), in the UNPREDICTABLE cases (R84) or where the Note exempts
the agent (R87, R88). -/
def requirement (s : State) (p : Nat) (pe : Pe) (v : Word) (a : Nat) (kind : AgentKind) :
    Option Selector :=
  match granuleOf (operandTg v) with
  | none => none
  | some g =>
    if s.sameDomain p a && !unpredictableRange g v && agentOwes s.params p pe a kind then
      some (selectorFor s p pe v g kind)
    else none

/-- `RCond` in the closed form of R83. -/
def rangeCond (m : RangeMatch) (base limit : Nat) (e : TlbEntry) : Bool :=
  match m with
  | .overlap => decide (e.base < limit) && decide (base < e.base + e.size)
  | .contained => decide (base ≤ e.base) && decide (e.base + e.size ≤ limit)

/-- `ACond` (R82). -/
def Selector.asidCond (q : Selector) (e : TlbEntry) : Bool :=
  e.global || (!e.global && q.asidOk && e.asid == q.asid)

/-- `VCond` (R80). -/
def Selector.vmidCond (q : Selector) (e : TlbEntry) : Bool :=
  match q.vmid with
  | some w => e.vmid == w
  | none => true

/-- `LCond` (R81). -/
def Selector.levelCond (q : Selector) (e : TlbEntry) : Bool :=
  match q.level with
  | some l => e.level == l
  | none => true

/-- `Match(e)` (R83), with the System MMU's narrowing (R88). -/
def Selector.selects (q : Selector) (e : TlbEntry) : Bool :=
  e.stage1 && e.final && q.asidCond e && e.sec == q.sec && e.regime == q.regime && q.vmidCond e
    && e.granule == q.granule && q.levelCond e && rangeCond q.rangeMatch q.base q.limit e
    && (!q.vmidZeroOnly || e.vmid == 0#16)

/-- `r.required(e)` (`10_state.md` R32). -/
def requires (required : Option Selector) (e : TlbEntry) : Bool :=
  match required with
  | some q => q.selects e
  | none => false

/-- What a perform leaves of a TLB (R91): the removed set `K` is every required entry and the
entries drawn beside them. -/
def Tlb.remove (t : Tlb) (required : Option Selector) (also : List TlbEntry) : Tlb :=
  t.filter fun e => !(requires required e || also.contains e)

end Sys2Proof.Machine
end

