-- ==== Sys2Proof/Machine/Tlbi.lean ====
section
/-! DEFINITION. The meaning of TLBI RVALE1IS (`40_tlbi_rvale1is.md` R69 to R90). -/

namespace Sys2Proof.Machine

/-- The request an execution by PE `p` issues to agent `a` (R90). -/
def requestFor (s : State) (p : Nat) (pe : Pe) (v : Word) (a : Nat) (kind : AgentKind) :
    Request where
  id := s.nextRequest
  issuer := p
  required := requirement s p pe v a kind

/-- What an issue does to one target agent (R90): the request pends, or, with `immediate`, is
performed within the step. -/
def deliver (s : State) (a : Nat) (r : Request) (ag : Agent) : Agent :=
  match s.params.completion with
  | .pending => { ag with pending := ag.pending ++ [r] }
  | .immediate => { ag with tlb := ag.tlb.remove r.required (Config.alsoRemoved s.draws a) }

/-- What an issue does to agent number `a`: a request if it is in the domain (R86), else nothing. -/
def issueAt (s : State) (p : Nat) (pe : Pe) (v : Word) (a : Nat) (ag : Agent) : Agent :=
  if s.sameDomain p a then deliver s a (requestFor s p pe v a ag.kind) ag else ag

/-- `pc <- pc + 4` (R90, `10_state.md` R16). -/
def Pe.advance (pe : Pe) : Pe := { pe with pc := pe.pc + 4#64 }

/-- The issue step (R90): requests to every agent of the domain, and the program counter. -/
def State.issue (s : State) (p : Nat) (pe : Pe) (v : Word) : State :=
  State.modifyPe
    { s with
      agents := s.agents.mapIdx (issueAt s p pe v)
      nextRequest := s.nextRequest + 1 }
    p Pe.advance

/-- `pc = 2^64 - 4` has no successor (`10_state.md` R16). -/
def lastPc : Word := 0xFFFFFFFFFFFFFFFC#64

/-- TLBI RVALE1IS executed by PE `p` (R73): raise, or issue the operation on `X[t]`. Executed at the
last word of the address space it is refused, with no step and no fault (R16;
`93_implementation_defined.md` section 1). -/
def tlbiRvale1isBy (s : State) (t : BitVec 5) (p : Nat) (pe : Pe) :
    Host.Outcome State Fault Refusal :=
  if pe.pc = lastPc then s.refuse .noSuccessor
  else
    .next
      (match access s p pe with
      | some reason => s.raise p reason (encode (.tlbiRvale1is t))
      | none => s.issue p pe (pe.readX t))

/-- TLBI RVALE1IS (R69). -/
def execTlbiRvale1is (t : BitVec 5) (s : State) : Host.Outcome State Fault Refusal :=
  match s.executing with
  | .error f => .fault f
  | .ok (p, pe) => tlbiRvale1isBy s t p pe

end Sys2Proof.Machine
end

