-- ==== Sys2Proof/Machine/Dispatch.lean ====
section
/-! DEFINITION. One arm per instruction (`00_scope.md` R7: exactly one). -/

namespace Sys2Proof.Machine

def exec (i : Instr) (s : State) : Host.Outcome State Fault Refusal :=
  match i with
  | .tlbiRvale1is t => Sys2Proof.Machine.execTlbiRvale1is t s

end Sys2Proof.Machine
end

