-- ==== Sys2Proof/Machine/Fetch.lean ====
section
/-! DEFINITION. What a PE does at its instruction step: nothing, a stop, a refusal or an instruction
(`60_exceptions.md` R103, `70_reset_and_hazards.md` R125, R126), and placing one instruction there. -/

namespace Sys2Proof.Machine

/-- What the instruction step of a PE comes to. -/
inductive PeStep where
  | nothing
  | stop (f : Fault)
  | refuse (r : Refusal)
  | run (i : Instr)
  deriving DecidableEq, Repr

/-- Decoding a fetched word: a word that is not the instruction is refused by name (R7, R68). -/
def decodedStep (w : InstrWord) : PeStep :=
  match decode w with
  | .instr i => .run i
  | .unknown u => .refuse (.unknownWord u)

/-- The instruction step of a PE with no fault recorded (R125, R126). -/
def fetchedStep : Fetched → PeStep
  | .done => .nothing
  | .refuse r => .refuse r
  | .unwritten a => .stop (.textUnwritten a)
  | .word w => decodedStep w

/-- The instruction step of a PE (R103, R125, R126). -/
def Pe.next (pe : Pe) : PeStep :=
  match pe.stopped with
  | some f => .stop f
  | none => fetchedStep pe.fetch

/-- The PE whose instruction step it is, or PE 0 in another agent's turn. -/
def State.turnPe (s : State) : Nat :=
  match s.turn with
  | .instruction p => p
  | _ => 0

/-- Placing one word where PE `p` fetches next: its program at its `pc`, no fault recorded, and its
turn (R103: a PE with a fault recorded has no step). -/
def State.placed (s : State) (p : Nat) (w : InstrWord) : State :=
  { s.modifyPe p (fun pe => { pe.load pe.pc [w] with fault := none }) with
    turn := .instruction p }

end Sys2Proof.Machine
end

