-- ==== Sys2Proof/Machine/Performer.lean ====
section
/-! DEFINITION. The steps of an agent's invalidation performer: perform (`40_tlbi_rvale1is.md` R91),
evict and fill (`20_memory.md` R51). A step that is not enabled changes nothing (log 3). -/

namespace Sys2Proof.Machine

/-- One agent performs request `r`: the required entries and the drawn ones go, and the request is
taken out (R91). -/
def Agent.perform (r : Request) (also : List TlbEntry) (ag : Agent) : Agent :=
  { ag with
    tlb := ag.tlb.remove r.required also
    pending := ag.pending.erase r }

/-- The pending request of agent `a` with a given number. -/
def State.pendingRequest (s : State) (a id : Nat) : Option Request :=
  match s.agents[a]? with
  | some ag => ag.pending.find? fun r => r.id == id
  | none => none

/-- The perform step of agent `a` for its request number `id` (R91), in any order (R49). -/
def State.perform (s : State) (a id : Nat) (also : List TlbEntry) : State :=
  match s.pendingRequest a id with
  | some r => s.modifyAgent a (Agent.perform r also)
  | none => s

/-- `evict(a, e)` (R51). -/
def State.evict (s : State) (a : Nat) (e : TlbEntry) : State :=
  s.modifyAgent a fun ag => { ag with tlb := ag.tlb.without e }

/-- `TLBFill(state, a, e)` (P13; log 17), for an entry record of R30 (log 27). -/
def fillAllowed (s : State) (a : Nat) (e : TlbEntry) : Bool :=
  e.wf s.params &&
    match s.params.tlbFill with
    | .fixed b => b
    | .perState => Config.tlbFill s.draws a e

/-- `fill(a, e)` (R51). -/
def State.fill (s : State) (a : Nat) (e : TlbEntry) : State :=
  if fillAllowed s a e then s.modifyAgent a fun ag => { ag with tlb := ag.tlb.add e } else s

end Sys2Proof.Machine
end

