-- ==== Sys2Proof/Machine/Step.lean ====
section
/-! DEFINITION. One step of the system: the step of the agent whose turn it is, after which the next
turn is drawn (`60_exceptions.md` R112). -/

namespace Sys2Proof.Machine

/-- The instruction step of PE `p` (R125): nothing for an agent that has none, a stop for a faulted
PE (R103), the mark where the model refuses (R126), else the instruction. -/
def instructionStep (p : Nat) (s : State) : Host.Outcome State Fault Refusal :=
  match s.pe? p with
  | none => .next s
  | some pe =>
    match pe.next with
    | .nothing => .next s
    | .stop f => .fault f
    | .refuse r => s.refuse r
    | .run i => exec i s

/-- One step. -/
def step (s : State) : Host.Outcome State Fault Refusal :=
  match s.turn with
  | .instruction p => passing (instructionStep p s)
  | .perform a id also => .next (s.perform a id also).pass
  | .evict a e => .next (s.evict a e).pass
  | .fill a e => .next (s.fill a e).pass

/-- `s` with one instruction loaded where `step` fetches next: the PE whose turn it is (PE 0 if it
is no instruction turn) gets it as its program at its `pc`, and the turn (log 11). -/
def State.withFetchWord (s : State) (nbits w : Nat) : State :=
  s.placed s.turnPe (tableWord nbits w)

end Sys2Proof.Machine
end

