-- ==== Sys2Proof/Safety.lean ====
section
/-! DEFINITION. The terms claims are stated in: who executes, the launch premises of
`70_reset_and_hazards.md` R118, the end of a run (R125), completion (`20_memory.md` R48), the
invariants, and the fairness assumption (R124). -/

namespace Sys2Proof.Machine

/-- It is the instruction step of PE `p`, whose state is `pe`, and no fault is recorded on it. -/
structure Executes (s : State) (p : Nat) (pe : Pe) : Prop where
  turn : s.turn = .instruction p
  here : s.pe? p = some pe
  noFault : pe.fault = none

/-! ### Launch premises (R118) -/

/-- The fault record of an agent; a System MMU has none. -/
def Agent.fault (ag : Agent) : Option FaultRecord :=
  match ag.kind.pe? with
  | some pe => pe.fault
  | none => none

/-- `NoFault` (R118): no PE has a fault recorded. -/
def State.noFault (s : State) : Bool := s.agents.all fun ag => ag.fault.isNone

/-- `NothingPending` (R118): every `Pending[a]` is empty. -/
def State.nothingPending (s : State) : Bool := s.agents.all fun ag => ag.pending.isEmpty

/-- The alternative of R118 to `NothingPending`: exactly these requests pend, each at its agent. -/
def InFlight (s : State) (requests : List (Nat × Request)) : Prop :=
  ∀ a r, (a, r) ∈ requests ↔ ∃ ag, s.agents[a]? = some ag ∧ r ∈ ag.pending

/-- `Present` (R118). -/
def State.present (s : State) : Bool := s.params.haveTlbiRange

/-- `AtEL(p, l)` (R118). -/
def AtEl (s : State) (p : Nat) (l : EL) : Prop := ∃ pe, s.pe? p = some pe ∧ pe.el = l

/-- `NoTrap(p)` (R118): none of the three conditions of R72 holds on PE `p`. -/
def noTrap (s : State) (p : Nat) (pe : Pe) : Bool :=
  !trapTtlb s p pe && !trapTtlbis s p pe && !trapFineGrained s p pe

/-- The word of a program text at an address, if all its bytes are there (R37). -/
def Pe.wordAt (pe : Pe) (a : Nat) : Option InstrWord :=
  match Pe.fetchWord { pe with pc := BitVec.ofNat 64 a } with
  | .word w => some w
  | _ => none

/-- `CodeAt(p, base, words)` (R118). -/
structure CodeAt (s : State) (p : Nat) (base : Word) (words : List InstrWord) : Prop where
  program : ∃ pe, s.pe? p = some pe ∧ pe.program = some ⟨base, words.length⟩ ∧ pe.pc = base ∧
    ∀ k w, words[k]? = some w → pe.wordAt (base.toNat + 4 * k) = some w
  aligned : base.toNat % 4 = 0
  inSpace : base.toNat + 4 * words.length ≤ 2 ^ 64

/-- `Regs(p, ...)` (R118): values of the registers a program reads; every other register has an
arbitrary value. -/
def Regs (s : State) (p : Nat) (values : List (BitVec 5 × Word)) : Prop :=
  ∃ pe, s.pe? p = some pe ∧ ∀ t v, (t, v) ∈ values → pe.readX t = v

/-- `FillPolicy(F)` (R118, `20_memory.md` R51): `TLBFill`, in every state of a system with these
parameters and so in every later one of a run, implies `F`. DESIGN CHOICE: R118 gives `F` no type;
here it reads state, agent and entry, as `TLBFill` (P13) does (log 29). -/
def FillPolicy (s : State) (F : State → Nat → TlbEntry → Prop) : Prop :=
  ∀ w : State, w.params = s.params → ∀ a e, fillAllowed w a e = true → F w a e

/-! ### The end of a run (R125) and completion (R48) -/

/-- A PE with a program has exited when `pc == end(p)`; one without a program is not waited for. -/
def Pe.exited (pe : Pe) : Bool :=
  match pe.program with
  | some c => decide (pe.pc.toNat = c.limit)
  | none => true

/-- The same of an agent: a System MMU has nothing to exit from. -/
def Agent.exited (ag : Agent) : Bool :=
  match ag.kind.pe? with
  | some pe => pe.exited
  | none => true

/-- A final state (R125): every PE that has a program has exited, nothing pends, no fault is
recorded and the refusal mark is not set. -/
def State.final (s : State) : Bool :=
  s.agents.all Agent.exited && s.nothingPending && s.noFault && s.refusal.isNone

/-- `Completed(r)` (R48): request number `id` is in no `Pending[a]`. -/
def State.completed (s : State) (id : Nat) : Bool :=
  s.agents.all fun ag => ag.pending.all fun r => r.id != id

/-! ### Invariants -/

/-- The state of a PE: canonical text, an implemented Exception level (R109), a VMID of `VMIDBits`
bits (R26). -/
def Pe.wf (c : Params) (pe : Pe) : Bool :=
  pe.text.wf && c.implements pe.el && c.vmidBits.fits pe.currentVmid

/-- What a frozen predicate of the instruction looks like: one of the two regimes it can target
(R80), a granule-aligned base below `2^64` (R36), a range of `2^13` to `2^37` bytes (R95). -/
def Selector.wf (q : Selector) : Bool :=
  q.regime != .other && decide (q.base < 2 ^ 64) && decide (q.base % granuleSize q.granule = 0)
    && decide (q.base + 2 ^ 13 ≤ q.limit) && decide (q.limit ≤ q.base + 2 ^ 37)

/-- The same of a request that requires nothing. -/
def Request.wf (r : Request) : Bool :=
  match r.required with
  | some q => q.wf
  | none => true

/-- An agent: its TLB is a finite set of entry records (R29, R30), its pending requests are distinct
and were issued, and under `immediate` none pends (R32). -/
def Agent.wf (c : Params) (issued : Nat) (ag : Agent) : Bool :=
  ag.tlb.wf c
    && decide (ag.pending.Pairwise fun r r' => r.id ≠ r'.id)
    && ag.pending.all (fun r => decide (r.id < issued) && r.wf)
    && (c.completion == .pending || ag.pending.isEmpty)
    && (match ag.kind with
      | .pe core => core.wf c
      | .systemMmu => true)

/-- The invariant of the system. -/
def State.wf (s : State) : Bool := s.agents.all (Agent.wf s.params s.nextRequest)

/-- Every pending request was issued by an agent of the same domain (R86). -/
def PendingInDomain (s : State) : Prop :=
  ∀ a ag r, s.agents[a]? = some ag → r ∈ ag.pending → s.sameDomain r.issuer a = true

/-- A PE in the middle of a program of this spec (R125): an aligned text of words that are the
instruction, ending below `2^64`, and `pc` in it. -/
def Pe.inProgram (pe : Pe) : Bool :=
  match pe.program with
  | none => true
  | some c =>
    decide (c.base.toNat % 4 = 0) && decide (c.limit < 2 ^ 64) && decide (pe.pc.toNat % 4 = 0)
      && decide (c.base.toNat ≤ pe.pc.toNat) && decide (pe.pc.toNat ≤ c.limit)
      && (List.range c.count).all fun k =>
        match pe.wordAt (c.base.toNat + 4 * k) with
        | some w => w &&& patternMask == patternMatch
        | none => false

/-- Every PE runs a program of this spec. -/
def State.launched (s : State) : Bool :=
  s.agents.all fun ag =>
    match ag.kind with
    | .pe core => core.inProgram
    | .systemMmu => true

/-! ### Runs -/

/-- One move of the system under any schedule: some agent's step is taken (R112). -/
def Move (s u : State) : Prop := ∃ τ, step { s with turn := τ } = .next u

/-- The states a run can come to, whatever the schedule. -/
inductive Reachable (s : State) : State → Prop where
  | start : Reachable s s
  | move {u v : State} (before : Reachable s u) (last : Move u v) : Reachable s v

/-- `NoInterrupts` (R118, `60_exceptions.md` R102) of PE `p` in a sequence of states: from one to the
next `p` is as it was, or its own instruction step was taken. A sequence of this model's moves always
has it; it is the premise under which the model speaks of hardware (log 23). -/
def NoInterrupts (run : Nat → State) (p : Nat) : Prop :=
  ∀ n, (run (n + 1)).pe? p = (run n).pe? p ∨
    step { run n with turn := .instruction p } = .next (run (n + 1))

/-- Weak fairness of the perform step (R124): in an infinite run, a pending request is some time
pending no more. An assumption a claim of termination names and owns; no step rests on it
(log 25). -/
def FairRun (run : Nat → State) : Prop :=
  (∀ n, Move (run n) (run (n + 1))) ∧
    ∀ (n a : Nat) (ag : Agent) (r : Request), (run n).agents[a]? = some ag → r ∈ ag.pending →
      ∃ m, n ≤ m ∧ ∀ ag' : Agent, (run m).agents[a]? = some ag' → r ∉ ag'.pending

end Sys2Proof.Machine
end

