-- ==== Sys2Proof/Certificates/Slice0/Obligations.lean ====
section
/-! DEFINITION. The statements about the model, each from the rules of the spec its docstring cites.
"Executes s p pe" is the hypothesis of every statement about an execution: it is PE `p`'s
instruction step, its state is `pe`, and no fault is recorded on it. -/

open Sys2Proof Sys2Proof.Machine

/-! ### Encoding -/

/-- R37, R53, R54, R55: decoding an encoded instruction gives it back, on words and on bytes, and no
other word decodes to it. -/
def Obligations.EncodeAndDecodeAreInverse : Prop :=
  ∀ i : Instr, i.wellFormed = true →
    decode (encode i) = .instr i ∧
      (∀ w, decode w = .instr i → w = encode i) ∧
      ∀ rest, decodeBytes (bytesOfWord (encode i) ++ rest) = .ok (i, rest)

/-- R55: the pattern, the register number, all 32 numbers admitted, bit 21 zero. -/
def Obligations.WordPatternSelectsTheInstruction : Prop :=
  ∀ (w : InstrWord) (t : BitVec 5),
    (decode w = .instr (.tlbiRvale1is t) ↔
        w &&& 0xFFFFFFE0#32 = 0xD50882A0#32 ∧ t = w.extractLsb' 0 5) ∧
      decode (0xD50882A0#32 ||| t.setWidth 32) = .instr (.tlbiRvale1is t) ∧
      (decode w = .instr (.tlbiRvale1is t) → w.getLsbD 21 = false) ∧
      (w &&& 0xFFFFFFE0#32 ≠ 0xD50882A0#32 → decode w = .unknown w)

/-- R53, R54: the five selector values, in their fields of the word. -/
def Obligations.EncodedWordHasTheSelectors : Prop :=
  ∀ t : BitVec 5,
    let w := encode (.tlbiRvale1is t)
    w.extractLsb' 22 10 = 0b1101010100#10 ∧ w.extractLsb' 21 1 = 0b0#1 ∧
      w.extractLsb' 19 2 = 0b01#2 ∧ w.extractLsb' 16 3 = 0b000#3 ∧
      w.extractLsb' 12 4 = 0b1000#4 ∧ w.extractLsb' 8 4 = 0b0010#4 ∧
      w.extractLsb' 5 3 = 0b101#3 ∧ w.extractLsb' 0 5 = t

/-- `95_test_vectors.md` section 2: the listed words decode as listed. -/
def Obligations.ListedWordsDecodeAsListed : Prop :=
  [0, 1, 2, 5, 30, 31].map (fun t => decodeTableWord 32 (0xD50882A0 + t)) =
      [some (.tlbiRvale1is 0), some (.tlbiRvale1is 1), some (.tlbiRvale1is 2),
        some (.tlbiRvale1is 5), some (.tlbiRvale1is 30), some (.tlbiRvale1is 31)] ∧
    let others : List InstrWord := [0xD50882C0#32, 0xD5088280#32, 0xD50886A0#32, 0xD50892A0#32,
      0xD50C82A0#32, 0xD51882A0#32, 0xD50082A0#32, 0xD52882A0#32, 0x00000000#32, 0xD503201F#32]
    others.map decode = others.map Decoded.unknown

/-- R15, R66, R67: the disassembled line assembles back; an omitted operand and `XZR` are register
31; the `SYS` spelling is the same instruction. -/
def Obligations.SpellingsAssembleToOneInstruction : Prop :=
  (∀ i : Instr, (disassemble i).assemble = some i) ∧
    Asm.assemble (.tlbiRvale1is none) = some (.tlbiRvale1is 31) ∧
    Asm.assemble (.tlbiRvale1is (some .xzr)) = some (.tlbiRvale1is 31) ∧
    (∀ n, n ≤ 30 →
      Asm.assemble (.tlbiRvale1is (some (.x n))) = some (.tlbiRvale1is (BitVec.ofNat 5 n))) ∧
    ∀ xt, Asm.assemble (.sys 0 8 2 5 xt) = Asm.assemble (.tlbiRvale1is xt)

/-! ### The access check -/

/-- R73 (with R70 to R72 in its pseudocode): the whole access check as one function. Its last branch
is where the instruction performs the operation on `X[t]`. Executed at `pc = 2^64 - 4` it is refused,
with no step and no fault (R16, D4, `93_implementation_defined.md` section 1). -/
def Obligations.AccessCheckDecidesTheOutcome : Prop :=
  ∀ (s : State) (p : Nat) (pe : Pe) (t : BitVec 5), Executes s p pe →
    exec (.tlbiRvale1is t) s =
      if pe.pc.toNat = 2 ^ 64 - 4 then s.refuse .noSuccessor
      else if s.params.haveTlbiRange = false then
        .next (s.raise p .undefined (encode (.tlbiRvale1is t)))
      else if pe.el = .el0 then
        .next (s.raise p .undefined (encode (.tlbiRvale1is t)))
      else if pe.el = .el1 ∧ el2Enabled s.params pe = true ∧ el2UsingAArch32 s p = false ∧
          (pe.hcr.ttlb = true ∨ pe.hcr.ttlbis = true ∨
            ((s.params.haveEl3 = false ∨ pe.scr.fgten = true) ∧
              pe.hfgitr.tlbirvale1is = true)) then
        .next (s.raise p (.systemAccessTrap .el2 0x18) (encode (.tlbiRvale1is t)))
      else .next (s.issue p pe (pe.readX t))

/-- R73, R90: at EL1 with no trap condition, at EL2 and at EL3, the instruction completes: the PE's
next state is `pe` with `pc + 4`, and every other PE is as it was. -/
def Obligations.CompletesWhereNothingRaises : Prop :=
  ∀ (s : State) (p : Nat) (pe : Pe) (t : BitVec 5),
    Executes s p pe → s.params.haveTlbiRange = true →
    (pe.el = .el1 ∧ noTrap s p pe = true ∨ pe.el = .el2 ∨ pe.el = .el3) →
    pe.pc.toNat ≠ 2 ^ 64 - 4 →
      ∃ u, exec (.tlbiRvale1is t) s = .next u ∧ u = s.issue p pe (pe.readX t) ∧
        u.pe? p = some { pe with pc := pe.pc + 4#64 } ∧
        ∀ q, q ≠ p → u.pe? q = s.pe? q

/-- R70, with the order of C2: where ARMv8.4-TLBI is not implemented, `Undefined` at any Exception
level, and no trap. -/
def Obligations.UndefinedWhereNotPresent : Prop :=
  ∀ (s : State) (p : Nat) (pe : Pe) (t : BitVec 5),
    Executes s p pe → s.params.haveTlbiRange = false →
      access s p pe = some .undefined ∧
      exec (.tlbiRvale1is t) s =
        if pe.pc.toNat = 2 ^ 64 - 4 then s.refuse .noSuccessor
        else .next (s.raise p .undefined (encode (.tlbiRvale1is t)))

/-- R71: `Undefined` at EL0, in every configuration and with every control field. (At
`pc = 2^64 - 4` no step is taken at all, R16.) -/
def Obligations.UndefinedAtEl0 : Prop :=
  ∀ (s : State) (p : Nat) (pe : Pe) (t : BitVec 5),
    Executes s p pe → pe.el = .el0 →
      access s p pe = some .undefined ∧
      exec (.tlbiRvale1is t) s =
        if pe.pc.toNat = 2 ^ 64 - 4 then s.refuse .noSuccessor
        else .next (s.raise p .undefined (encode (.tlbiRvale1is t)))

/-- R72: at EL1 each of the three conditions traps to EL2 with 0x18, and no TLB, register or
`Pending` set is changed. (At `pc = 2^64 - 4` no step is taken at all: `NoSuccessorIsRefused`.) -/
def Obligations.TrappedToEl2FromEl1 : Prop :=
  ∀ (s : State) (p : Nat) (pe : Pe) (t : BitVec 5),
    Executes s p pe → s.params.haveTlbiRange = true → pe.el = .el1 →
    el2Enabled s.params pe = true → el2UsingAArch32 s p = false →
    (pe.hcr.ttlb = true ∨ pe.hcr.ttlbis = true ∨
      ((s.params.haveEl3 = false ∨ pe.scr.fgten = true) ∧ pe.hfgitr.tlbirvale1is = true)) →
    access s p pe = some (.systemAccessTrap .el2 0x18) ∧ (pe.pc.toNat ≠ 2 ^ 64 - 4 →
      ∃ u, exec (.tlbiRvale1is t) s = .next u ∧
        u.pe? p = some { pe with
          fault := some ⟨.systemAccessTrap .el2 0x18, pe.pc, encode (.tlbiRvale1is t)⟩ } ∧
        (∀ q, q ≠ p → u.pe? q = s.pe? q) ∧
        ∀ a : Nat, (u.agents[a]?).map (fun ag => (ag.tlb, ag.pending)) =
          (s.agents[a]?).map (fun ag => (ag.tlb, ag.pending)))

/-- R106: `HCR_EL2.TTLB` traps every EL1 execution where EL2 is enabled and uses AArch64. Everywhere
else its value has no effect: neither on what the instruction raises nor on what it requires of any
agent. EL0 is always Undefined, EL2 and EL3 are never trapped. -/
def Obligations.TtlbActsOnlyAtEl1UnderEl2 : Prop :=
  ∀ (s : State) (p : Nat) (pe : Pe) (t : BitVec 5) (b : Bool),
    (Executes s p pe → s.params.haveTlbiRange = true → pe.el = .el1 →
      el2Enabled s.params pe = true → el2UsingAArch32 s p = false → pe.hcr.ttlb = true →
      access s p pe = some (.systemAccessTrap .el2 0x18) ∧
      exec (.tlbiRvale1is t) s =
        if pe.pc.toNat = 2 ^ 64 - 4 then s.refuse .noSuccessor
        else .next (s.raise p (.systemAccessTrap .el2 0x18) (encode (.tlbiRvale1is t)))) ∧
    (¬(pe.el = .el1 ∧ el2Enabled s.params pe = true ∧ el2UsingAArch32 s p = false) →
      access s p { pe with hcr := { pe.hcr with ttlb := b } } = access s p pe ∧
        ∀ v a kind, requirement s p { pe with hcr := { pe.hcr with ttlb := b } } v a kind =
          requirement s p pe v a kind) ∧
    (pe.el = .el0 → access s p pe = some .undefined) ∧
    (s.params.haveTlbiRange = true → (pe.el = .el2 ∨ pe.el = .el3) → access s p pe = none)

/-- R27 (its `EL2Enabled()` is the spec's decision D18, log 24): EL2 is enabled when it is
implemented and the state is not Secure with `SCR_EL3.EEL2 == 0`, and uses AArch32 as parameter P4
says, where that is one value for the system. -/
def Obligations.El2EnabledPredicate : Prop :=
  ∀ (s : State) (p : Nat) (pe : Pe),
    (el2Enabled s.params pe = true ↔
      s.params.haveEl2 = true ∧
        (s.params.haveEl3 = false ∨ pe.scr.ns = true ∨ pe.scr.eel2 = true)) ∧
    ∀ b, s.params.el2IsAArch32 = .fixed b → el2UsingAArch32 s p = b

/-! ### Raising, and the end of a PE's steps -/

/-- R97, R98, R100, R103: `raise` records the reason with its arguments, `pc` and word; `pc`, every
register, TLB, request and the rest of the system stay. -/
def Obligations.RaiseChangesOnlyTheFaultRecord : Prop :=
  ∀ (s : State) (p : Nat) (pe : Pe) (reason : FaultReason) (w : InstrWord),
    s.pe? p = some pe →
      let u := s.raise p reason w
      u.pe? p = some { pe with fault := some ⟨reason, pe.pc, w⟩ } ∧
        (∀ q, q ≠ p → u.pe? q = s.pe? q) ∧
        (∀ a : Nat, (u.agents[a]?).map (fun ag => (ag.tlb, ag.pending, ag.domain)) =
          (s.agents[a]?).map (fun ag => (ag.tlb, ag.pending, ag.domain))) ∧
        u.params = s.params ∧ u.refusal = s.refusal ∧ u.nextRequest = s.nextRequest

/-- R104: an instruction that comes to a next state raised and issued nothing, or issued the whole
operation and raised nothing, or was refused for want of a successor (R16) and only set the mark. -/
def Obligations.RaiseOrWholeIssue : Prop :=
  ∀ (i : Instr) (s u : State), exec i s = .next u →
    ∃ p pe, Executes s p pe ∧
      ((∃ r, u.pe? p = some { pe with fault := some r } ∧ r.pc = pe.pc ∧ r.word = encode i ∧
          u.nextRequest = s.nextRequest ∧
          ∀ a : Nat, (u.agents[a]?).map (fun ag => (ag.tlb, ag.pending)) =
            (s.agents[a]?).map (fun ag => (ag.tlb, ag.pending))) ∨
        (∃ t, i = .tlbiRvale1is t ∧ u = s.issue p pe (pe.readX t) ∧
          u.pe? p = some { pe with pc := pe.pc + 4#64 }) ∨
        (pe.pc.toNat = 2 ^ 64 - 4 ∧ u = { s with refusal := some .noSuccessor }))

/-- R103: a fault record is never cleared, and a PE that has one changes no more, whoever steps. -/
def Obligations.FaultedPeStaysAsItIs : Prop :=
  ∀ (s u : State) (p : Nat) (pe : Pe) (r : FaultRecord),
    step s = .next u → s.pe? p = some pe → pe.fault = some r → u.pe? p = some pe

/-- R103: a PE whose fault record is set has no further step: its turn is a stop (log 5). -/
def Obligations.FaultedPeHasNoStep : Prop :=
  ∀ (s : State) (p : Nat) (pe : Pe) (r : FaultRecord),
    s.turn = .instruction p → s.pe? p = some pe → pe.fault = some r →
      step s = .fault (.peStopped r)

/-- R125: a PE with no program, and a PE with `pc == end(p)`, has no instruction step: only the turn
passes on. -/
def Obligations.ExitedPeHasNoStep : Prop :=
  ∀ (s : State) (p : Nat) (pe : Pe),
    Executes s p pe →
    (pe.program = none ∨ ∃ c, pe.program = some c ∧ pe.pc.toNat % 4 = 0 ∧
      pe.pc.toNat = c.limit) →
      step s = .next s.pass

/-! ### The operand -/

/-- R57, R75: the six fields of the operand value, and nothing else, make it up. -/
def Obligations.FieldsMakeUpTheOperand : Prop :=
  ∀ v : Word,
    (operandAsid v ++ operandTg v ++ BitVec.ofNat 2 (operandScale v) ++
      BitVec.ofNat 5 (operandNum v) ++ operandTtl v ++ operandBaf v : BitVec 64) = v

/-- R15, R56, R94 (a): `X[t]` is the register, but register 31 reads as zero, and then nothing is
required of any agent. -/
def Obligations.Register31ReadsAsZero : Prop :=
  ∀ (s : State) (p : Nat) (pe : Pe) (a : Nat) (kind : AgentKind),
    (∀ (t : BitVec 5) (h : t.toNat < 31), pe.readX t = pe.x[t.toNat]) ∧
      pe.readX 31 = 0#64 ∧ requirement s p pe (pe.readX 31) a kind = none

/-- R77: the field stands at bits `gs+36 : gs` of `Base`, zeros stand below, and the `sign` and
`zero` instances extend it by sign and by zero; they agree when `baf[36] == 0`. -/
def Obligations.BaseExtendsTheField : Prop :=
  ∀ baf : BitVec 37,
    (∀ (x : BaseExt) (g : Granule),
      (baseAddress x g baf).extractLsb' (granuleShift g) 37 = baf ∧
        (baseAddress x g baf).toNat % 2 ^ granuleShift g = 0 ∧
        baseAddress .zero g baf = baf.setWidth 64 <<< granuleShift g ∧
        (baf.getLsbD 36 = false → baseAddress .sign g baf = baseAddress .zero g baf)) ∧
      baseAddress .sign .g4K baf = (baf ++ 0#12).signExtend 64 ∧
      baseAddress .sign .g16K baf = (baf ++ 0#14).signExtend 64 ∧
      baseAddress .sign .g64K baf = (baf ++ 0#16).signExtend 64

/-- R77, R78: `Base` is the extension P10 of `v[36:0]`, and `End` is `Base + (NUM + 1) * 2^(5*SCALE + 1) * Translation_Granule_Size` in unbounded
integers, so an `End` past `2^64` puts every address from `Base` on in range. -/
def Obligations.RangeIsTheFormula : Prop :=
  ∀ (c : Params) (v : Word),
    (∀ g, operandBase c g v = (baseAddress c.baseExt g (v.extractLsb' 0 37)).toNat) ∧
    (∀ g, operandEnd c g v = operandBase c g v +
      ((v.extractLsb' 39 5).toNat + 1) * 2 ^ (5 * (v.extractLsb' 44 2).toNat + 1) *
        (match g with | .g4K => 4096 | .g16K => 16384 | .g64K => 65536)) ∧
      ∀ g va, va < 2 ^ 64 → operandBase c g v ≤ va → 2 ^ 64 ≤ operandEnd c g v →
        va < operandEnd c g v

/-- R95: the bounds of the exact arithmetic. -/
def Obligations.RangeArithmeticBounds : Prop :=
  ∀ (c : Params) (g : Granule) (v : Word),
    operandScale v ≤ 3 ∧ operandNum v ≤ 31 ∧
      2 ^ 13 ≤ operandSize g v ∧ operandSize g v ≤ 2 ^ 37 ∧
      operandSize g v % (2 * granuleSize g) = 0 ∧
      operandBase c g v < 2 ^ 64 ∧ operandBase c g v % granuleSize g = 0 ∧
      operandEnd c g v < 2 ^ 64 + 2 ^ 37

/-- R84: the five UNPREDICTABLE cases, and no other. -/
def Obligations.UnpredictableRangeTable : Prop :=
  ∀ (g : Granule) (v : Word),
    unpredictableRange g v = true ↔
      (g = .g4K ∧ operandTtl v = 0b01#2 ∧ v.extractLsb' 0 18 ≠ 0#18) ∨
      (g = .g4K ∧ operandTtl v = 0b10#2 ∧ v.extractLsb' 0 9 ≠ 0#9) ∨
      (g = .g16K ∧ operandTtl v = 0b10#2 ∧ v.extractLsb' 0 11 ≠ 0#11) ∨
      (g = .g64K ∧ operandTtl v = 0b01#2 ∧ v.extractLsb' 0 26 ≠ 0#26) ∨
      (g = .g64K ∧ operandTtl v = 0b10#2 ∧ v.extractLsb' 0 13 ≠ 0#13)

/-- R81: the level condition by TTL value and granule, `0b01` with 16K treated as `0b00`; an entry
that fails it is not required to go. -/
def Obligations.LevelConditionByTtl : Prop :=
  ∀ (q : Selector) (g : Granule) (ttl : BitVec 2) (e : TlbEntry),
    q.level = levelOf (effectiveTtl g ttl) →
      (q.levelCond e = true ↔
        ttl = 0b00#2 ∨ (ttl = 0b01#2 ∧ g = .g16K) ∨ (ttl = 0b01#2 ∧ g ≠ .g16K ∧ e.level = 1) ∨
          (ttl = 0b10#2 ∧ e.level = 2) ∨ (ttl = 0b11#2 ∧ e.level = 3)) ∧
      (q.levelCond e = false → requires (some q) e = false)

/-! ### Which entries, which agents -/

/-- R79 (its reading of NS is the spec's decision D17, log 24) and P14: the target Security state. -/
def Obligations.TargetSecurityFollowsNs : Prop :=
  ∀ (c : Params) (pe : Pe),
    (c.haveEl3 = true → pe.scr.ns = false → targetSecurity c pe = .secure) ∧
      (c.haveEl3 = true → pe.scr.ns = true → targetSecurity c pe = .nonSecure) ∧
      (c.haveEl3 = false → targetSecurity c pe = c.secStateNoEl3)

/-- R80: the target regime and the VMID condition, whichever Exception level executes. -/
def Obligations.TargetRegimeAndVmid : Prop :=
  ∀ (c : Params) (pe : Pe) (q : Selector) (e : TlbEntry), q.vmid = targetVmid c pe →
    (el2Enabled c pe = true → pe.hcr.e2h = true → pe.hcr.tge = true →
      targetRegime c pe = .el20 ∧ q.vmidCond e = true) ∧
    (el2Enabled c pe = true → ¬(pe.hcr.e2h = true ∧ pe.hcr.tge = true) →
      targetRegime c pe = .el10 ∧ (q.vmidCond e = true ↔ e.vmid = pe.currentVmid)) ∧
    (el2Enabled c pe = false → targetRegime c pe = .el10 ∧ q.vmidCond e = true) ∧
    ∀ l, targetRegime c { pe with el := l } = targetRegime c pe ∧
      targetVmid c { pe with el := l } = targetVmid c pe

/-- R83 (its range condition), for an entry record of R30 and a range of the instruction: `overlap`
is some address of the range that the entry translates, `contained` is every address it
translates. -/
def Obligations.RangeConditionIsAboutAddresses : Prop :=
  ∀ (c : Params) (e : TlbEntry) (base limit : Nat),
    e.wf c = true → base < 2 ^ 64 → base < limit →
      (rangeCond .overlap base limit e = true ↔
        ∃ va, va < 2 ^ 64 ∧ base ≤ va ∧ va < limit ∧ e.translates va = true) ∧
      (rangeCond .contained base limit e = true ↔
        ∀ va, e.translates va = true → base ≤ va ∧ va < limit)

/-- R59, R76, R82, R83, R85, R87, R88, R89: the granule each TG value names, and the required predicate, condition by condition, for a granule the
operand names; for a Reserved TG it is empty. -/
def Obligations.RequiredIsTheConjunctionOfItsConditions : Prop :=
  ∀ (s : State) (p : Nat) (pe : Pe) (v : Word) (a : Nat) (kind : AgentKind) (e : TlbEntry),
    (operandTg v = 0b00#2 → granuleOf (operandTg v) = none ∧
      requires (requirement s p pe v a kind) e = false) ∧
    (operandTg v = 0b01#2 → granuleOf (operandTg v) = some .g4K) ∧
    (operandTg v = 0b10#2 → granuleOf (operandTg v) = some .g16K) ∧
    (operandTg v = 0b11#2 → granuleOf (operandTg v) = some .g64K) ∧
    ∀ g, granuleOf (operandTg v) = some g →
      (requires (requirement s p pe v a kind) e = true ↔
        s.sameDomain p a = true ∧ unpredictableRange g v = false ∧
        e.stage1 = true ∧ e.final = true ∧
        (e.global = true ∨
          e.global = false ∧ (asidBitsInUse s p = .bits16 ∨ v.extractLsb' 56 8 = 0#8) ∧
            e.asid = v.extractLsb' 48 16) ∧
        e.sec = targetSecurity s.params pe ∧
        e.regime = targetRegime s.params pe ∧
        (∀ m, targetVmid s.params pe = some m → e.vmid = m) ∧
        e.granule = g ∧
        (∀ l, levelOf (effectiveTtl g (operandTtl v)) = some l → e.level = l) ∧
        rangeCond s.params.rangeMatch (operandBase s.params g v) (operandEnd s.params g v) e =
          true ∧
        (∀ other, kind = .pe other →
          ¬(targetSecurity s.params pe = .secure ∧ targetRegime s.params pe = .el10 ∧ a ≠ p ∧
            s.params.haveEl3 = true ∧ other.scr.eel2 ≠ pe.scr.eel2)) ∧
        (kind = .systemMmu →
          targetSecurity s.params pe = .secure ∧ targetRegime s.params pe = .el10 ∧
            e.vmid = 0#16))

/-- R83, R94 (h), (j), (k), (m), R42: what is never required. -/
def Obligations.NeverRequiredEntries : Prop :=
  ∀ (s : State) (p : Nat) (pe : Pe) (v : Word) (a : Nat) (kind : AgentKind) (e : TlbEntry),
    requires (requirement s p pe v a kind) e = true →
      e.stage1 = true ∧ e.final = true ∧ e.regime ≠ .other ∧
        granuleOf (operandTg v) = some e.granule ∧
        (e.level = 0 → effectiveTtl e.granule (operandTtl v) = 0b00#2)

/-- R64, R82: with 8-bit ASIDs in use and `v[63:56] != 0` only global entries are required. 8 bits
are in use where P5 is 8 (log 18); where P5 is 16, as many as P6 says. -/
def Obligations.Res0BitsVoidNonGlobal : Prop :=
  ∀ (s : State) (p : Nat) (pe : Pe) (v : Word) (a : Nat) (kind : AgentKind) (e : TlbEntry),
    (s.params.asidBitsImpl = .bits8 → asidBitsInUse s p = .bits8) ∧
    (∀ w, s.params.asidBitsImpl = .bits16 → s.params.asidBitsInUse = .fixed w →
      asidBitsInUse s p = w) ∧
    (asidBitsInUse s p = .bits8 → v.extractLsb' 56 8 ≠ 0#8 →
      requires (requirement s p pe v a kind) e = true → e.global = true)

/-- R96: the worked example, for every entry and every agent of the domain that is a PE. -/
def Obligations.WorkedExampleRequiredSet : Prop :=
  ∀ (s : State) (p : Nat) (pe : Pe) (a : Nat) (other : Pe) (e : TlbEntry),
    s.params.haveEl2 = false → s.params.haveEl3 = false →
    s.params.secStateNoEl3 = .nonSecure → s.params.asidBitsImpl = .bits16 →
    s.params.asidBitsInUse = .fixed .bits16 → s.params.rangeMatch = .overlap →
    s.params.baseExt ≠ .free → s.sameDomain p a = true →
      (requires (requirement s p pe 0x0001400000080000#64 a (.pe other)) e = true ↔
        e.stage1 = true ∧ e.final = true ∧ e.sec = .nonSecure ∧ e.regime = .el10 ∧
        e.granule = .g4K ∧ (e.global = true ∨ e.asid = 1#16) ∧
        e.base < 0x80002000 ∧ 0x80000000 < e.base + e.size)

/-! ### Issue -/

/-- R90: what the issue step does to every agent: outside the domain nothing; inside, one request
with the required predicate of R89 pends, or is performed at once under `immediate`; the issuer's
`pc` advances; no general register, control field, `PSTATE` field or (under `pending`) TLB changes. -/
def Obligations.IssueAddsOneRequestPerTarget : Prop :=
  ∀ (s : State) (p : Nat) (pe : Pe) (v : Word) (a : Nat) (ag : Agent),
    s.pe? p = some pe → s.agents[a]? = some ag →
      ∃ ag', (s.issue p pe v).agents[a]? = some ag' ∧
        ag'.domain = ag.domain ∧
        ag'.kind = (if a = p then .pe { pe with pc := pe.pc + 4#64 } else ag.kind) ∧
        (s.sameDomain p a = false → ag'.tlb = ag.tlb ∧ ag'.pending = ag.pending) ∧
        (s.sameDomain p a = true → s.params.completion = .pending →
          ag'.tlb = ag.tlb ∧
            ag'.pending = ag.pending ++ [⟨s.nextRequest, p, requirement s p pe v a ag.kind⟩]) ∧
        (s.sameDomain p a = true → s.params.completion = .immediate →
          ag'.pending = ag.pending ∧
            ∃ also, ag'.tlb = ag.tlb.remove (requirement s p pe v a ag.kind) also)

/-- R28, R86, R113: two agents are of one domain when their domain numbers are equal (log 10); an
execution that performs, in a well-formed system that completes by pending requests, reaches exactly
the agents of the issuer's domain, the issuer among them. -/
def Obligations.RequestReachesExactlyTheDomain : Prop :=
  ∀ (s u : State) (p : Nat) (pe : Pe) (t : BitVec 5),
    (∀ a b, s.sameDomain a b = true ↔
      ∃ x y, s.agents[a]? = some x ∧ s.agents[b]? = some y ∧ x.domain = y.domain) ∧
    (s.wf = true → s.params.completion = .pending → Executes s p pe → access s p pe = none →
    pe.pc.toNat ≠ 2 ^ 64 - 4 → exec (.tlbiRvale1is t) s = .next u →
      s.sameDomain p p = true ∧
      ∀ (a : Nat) (ag : Agent), u.agents[a]? = some ag →
        ((∃ r ∈ ag.pending, r.id = s.nextRequest) ↔ s.sameDomain p a = true))

/-- R84, R85: with a Reserved TG or an UNPREDICTABLE range the instruction still completes, and the
request it issues requires nothing of any agent. -/
def Obligations.ReservedOrUnpredictableStillCompletes : Prop :=
  ∀ (s : State) (p : Nat) (pe : Pe) (t : BitVec 5),
    s.wf = true → Executes s p pe → access s p pe = none → pe.pc.toNat ≠ 2 ^ 64 - 4 →
    (operandTg (pe.readX t) = 0b00#2 ∨
      ∃ g, granuleOf (operandTg (pe.readX t)) = some g ∧
        unpredictableRange g (pe.readX t) = true) →
      ∃ u, exec (.tlbiRvale1is t) s = .next u ∧
        u.pe? p = some { pe with pc := pe.pc + 4#64 } ∧
        ∀ (a : Nat) (ag : Agent) (r : Request), u.agents[a]? = some ag → r ∈ ag.pending →
          r.id = s.nextRequest → ∀ e, requires r.required e = false

/-- R94 (n): executed twice, the instruction issues two requests with one required predicate at each
target. -/
def Obligations.TwoExecutionsIssueTwoRequests : Prop :=
  ∀ (s : State) (p : Nat) (pe : Pe) (v : Word) (a : Nat) (ag : Agent),
    s.params.completion = .pending → s.pe? p = some pe → s.agents[a]? = some ag →
    s.sameDomain p a = true →
      ∃ ag' q, ((s.issue p pe v).issue p { pe with pc := pe.pc + 4#64 } v).agents[a]? = some ag' ∧
        ag'.pending = ag.pending ++ [⟨s.nextRequest, p, q⟩, ⟨s.nextRequest + 1, p, q⟩] ∧
        q = requirement s p pe v a ag.kind

/-- R94 (n): what one perform required is gone, so performing the same predicate again, with nothing
drawn beside it, removes nothing. -/
def Obligations.SecondPerformRemovesNothing : Prop :=
  ∀ (t : Tlb) (q : Option Selector) (also : List TlbEntry),
    (t.remove q also).remove q [] = t.remove q also

/-- R33, R92: what an instruction leaves unchanged when it comes to a next state: every general
register, control field, `PSTATE.EL`, the VMID, the program and every byte of its text, on every PE;
all of every other PE; and either the fault record or the `pc` of the one that executes. -/
def Obligations.InstructionFrame : Prop :=
  ∀ (i : Instr) (s u : State), exec i s = .next u →
    u.params = s.params ∧ u.turn = s.turn ∧ u.draws = s.draws ∧
    u.agents.length = s.agents.length ∧
    ∀ (q : Nat) (pe : Pe), s.pe? q = some pe →
      ∃ pe', u.pe? q = some pe' ∧ pe'.x = pe.x ∧ pe'.el = pe.el ∧ pe'.scr = pe.scr ∧
        pe'.hcr = pe.hcr ∧ pe'.hfgitr = pe.hfgitr ∧ pe'.currentVmid = pe.currentVmid ∧
        pe'.program = pe.program ∧ (∀ b, pe'.text.read b = pe.text.read b) ∧
        (s.turn ≠ .instruction q → pe' = pe) ∧ (pe'.fault = pe.fault ∨ pe'.pc = pe.pc)

/-- R86, R113: an instruction of PE `p` leaves an agent outside its domain exactly as it was. -/
def Obligations.OutsideTheDomainIsUntouched : Prop :=
  ∀ (i : Instr) (s u : State) (p : Nat) (pe : Pe) (a : Nat),
    Executes s p pe → exec i s = .next u → s.sameDomain p a = false →
      u.agents[a]? = s.agents[a]?

/-! ### Perform, evict, fill -/

/-- R91: for every request that pends at agent `a` and every set `K` between its required entries
and the whole TLB, the perform step can remove exactly `K`; it takes the request out and changes no
other agent and nothing else. -/
def Obligations.PerformRemovesAnySetAboveTheRequired : Prop :=
  ∀ (s : State) (a : Nat) (ag : Agent) (r : Request) (K : List TlbEntry),
    s.wf = true → s.agents[a]? = some ag → r ∈ ag.pending →
    (∀ e ∈ ag.tlb, requires r.required e = true → e ∈ K) → (∀ e ∈ K, e ∈ ag.tlb) →
      ∃ u, step { s with turn := .perform a r.id K } = .next u ∧
        u.agents[a]? = some { ag with
          tlb := ag.tlb.filter (fun e => !K.contains e)
          pending := ag.pending.filter (fun r' => r' != r) } ∧
        (∀ b, b ≠ a → u.agents[b]? = s.agents[b]?) ∧
        u.params = s.params ∧ u.refusal = s.refusal ∧ u.nextRequest = s.nextRequest

/-- R52, R91: right after a request is performed, no entry of that TLB is one it requires, whatever
was drawn beside them; nothing was added; and the request pends no more there. -/
def Obligations.PerformedRequestLeavesNoRequiredEntry : Prop :=
  ∀ (s u : State) (a : Nat) (ag : Agent) (r : Request) (also : List TlbEntry),
    s.wf = true → s.agents[a]? = some ag → r ∈ ag.pending → s.turn = .perform a r.id also →
    step s = .next u →
      ∃ ag', u.agents[a]? = some ag' ∧ (∀ e ∈ ag'.tlb, requires r.required e = false) ∧
        (∀ e ∈ ag'.tlb, e ∈ ag.tlb) ∧ r ∉ ag'.pending

/-- R49: two requests can be performed in either order, at one agent or at two, to the same
effect. -/
def Obligations.PerformsCommute : Prop :=
  ∀ (s : State) (a b i j : Nat) (x y : List TlbEntry), (a ≠ b ∨ i ≠ j) →
    (s.perform a i x).perform b j y = (s.perform b j y).perform a i x

/-- R48: once the last agent at which a request pends performs it, the request is completed. -/
def Obligations.LastPerformCompletesTheRequest : Prop :=
  ∀ (s : State) (a : Nat) (ag : Agent) (r : Request) (also : List TlbEntry),
    s.wf = true → s.agents[a]? = some ag → r ∈ ag.pending →
    (∀ (b : Nat) (other : Agent), b ≠ a → s.agents[b]? = some other →
      ∀ r' ∈ other.pending, r'.id ≠ r.id) →
      s.completed r.id = false ∧ (s.perform a r.id also).completed r.id = true

/-- R29: no step but a fill adds an entry to any TLB, and no step changes one. -/
def Obligations.OnlyFillAddsEntries : Prop :=
  ∀ (s u : State) (a : Nat) (ag ag' : Agent), step s = .next u →
    s.agents[a]? = some ag → u.agents[a]? = some ag' →
      ∀ e ∈ ag'.tlb, e ∈ ag.tlb ∨ s.turn = .fill a e

/-- R51, P13: an evict step removes any entry, a fill step adds any entry record `TLBFill` admits, and
the rest of the agent stays; a fill it forbids changes nothing but the turn. `TLBFill` is the value
of P13, or, where that depends on the state, the free value of log 17. -/
def Obligations.EvictAndFillAtAnyTime : Prop :=
  ∀ (s : State) (a : Nat) (ag : Agent) (e : TlbEntry), s.agents[a]? = some ag →
    (∃ u ag', step { s with turn := .evict a e } = .next u ∧ u.agents[a]? = some ag' ∧
      ag' = { ag with tlb := ag'.tlb } ∧ ∀ x, x ∈ ag'.tlb ↔ x ∈ ag.tlb ∧ x ≠ e) ∧
    (fillAllowed s a e = true →
      ∃ u ag', step { s with turn := .fill a e } = .next u ∧ u.agents[a]? = some ag' ∧
        ag' = { ag with tlb := ag'.tlb } ∧ ∀ x, x ∈ ag'.tlb ↔ x = e ∨ x ∈ ag.tlb) ∧
    (fillAllowed s a e = false →
      step { s with turn := .fill a e } = .next ({ s with turn := .fill a e } : State).pass) ∧
    (fillAllowed s a e = true ↔ e.wf s.params = true ∧
      (s.params.tlbFill = .fixed true ∨
        s.params.tlbFill = .perState ∧ Config.tlbFill s.draws a e = true))

/-- R89: a request that pends stays as it was issued until its own perform step, whatever any agent
does meanwhile. -/
def Obligations.PendingRequestIsFrozen : Prop :=
  ∀ (s u : State) (a : Nat) (ag : Agent) (r : Request), step s = .next u →
    s.agents[a]? = some ag → r ∈ ag.pending →
      (∃ ag', u.agents[a]? = some ag' ∧ r ∈ ag'.pending) ∨
        ∃ also, s.turn = .perform a r.id also

/-! ### The step -/

/-- R125, R37: where the four bytes at an aligned `pc` of the program decode to an instruction, the
step is `exec` of it, after which the turn passes on. -/
def Obligations.StepRunsTheDecodedInstruction : Prop :=
  ∀ (s : State) (p : Nat) (pe : Pe) (c : Program) (b0 b1 b2 b3 : Byte) (i : Instr),
    Executes s p pe → pe.program = some c → c.limit ≤ 2 ^ 64 → pe.pc.toNat % 4 = 0 →
    c.base.toNat ≤ pe.pc.toNat → pe.pc.toNat < c.limit →
    pe.text.read pe.pc.toNat = some b0 → pe.text.read (pe.pc.toNat + 1) = some b1 →
    pe.text.read (pe.pc.toNat + 2) = some b2 → pe.text.read (pe.pc.toNat + 3) = some b3 →
    decodeBytes [b0, b1, b2, b3] = .ok (i, []) → i.wellFormed = true →
      step s = passing (exec i s)

/-- R7, R39, R126: the four ways a launch can be malformed each set the mark with their own reason,
and change nothing but the mark and the turn. -/
def Obligations.RefusalSetsTheMark : Prop :=
  ∀ (s : State) (p : Nat) (pe : Pe) (c : Program),
    Executes s p pe → s.refusal = none → pe.program = some c →
    (2 ^ 64 < c.limit →
      step s = .next ({ s with refusal := some .programPastTop } : State).pass) ∧
    (c.limit ≤ 2 ^ 64 → pe.pc.toNat % 4 ≠ 0 →
      step s = .next ({ s with refusal := some (.misalignedPc pe.pc) } : State).pass) ∧
    (c.limit ≤ 2 ^ 64 → pe.pc.toNat % 4 = 0 →
      (pe.pc.toNat < c.base.toNat ∨ c.limit < pe.pc.toNat) →
      step s = .next ({ s with refusal := some (.pcOutsideProgram pe.pc) } : State).pass) ∧
    ∀ w, c.limit ≤ 2 ^ 64 → pe.pc.toNat % 4 = 0 → c.base.toNat ≤ pe.pc.toNat →
      pe.pc.toNat < c.limit → pe.fetchWord = .word w → w &&& 0xFFFFFFE0#32 ≠ 0xD50882A0#32 →
      step s = .next ({ s with refusal := some (.unknownWord w) } : State).pass

/-- R16, D4: the instruction executed at `pc = 2^64 - 4` is refused, whatever the access check would
say: no step, no fault. -/
def Obligations.NoSuccessorIsRefused : Prop :=
  ∀ (s : State) (p : Nat) (pe : Pe) (t : BitVec 5),
    Executes s p pe → pe.pc.toNat = 2 ^ 64 - 4 →
      (s.refusal = none →
        exec (.tlbiRvale1is t) s = .next { s with refusal := some .noSuccessor }) ∧
      ∀ m, s.refusal = some m → exec (.tlbiRvale1is t) s = .refused .noSuccessor

/-- R126: a PE whose turn ends in a refusal takes no further instruction step: whatever is done after
it by any agent, its turn is a stop with that refusal (log 6). -/
def Obligations.RefusedPeTakesNoFurtherStep : Prop :=
  ∀ (s u w : State) (p : Nat) (m : Refusal),
    s.turn = .instruction p → s.refusal = none → step s = .next u → u.refusal = some m →
    Reachable u w →
      w.refusal = some m ∧ w.pe? p = s.pe? p ∧
        step { w with turn := .instruction p } = .refused m

/-- R102: in a run of this model's moves every PE changes by its own instruction step alone, so no
interrupt is taken (log 23). -/
def Obligations.NoInterruptIsTaken : Prop :=
  ∀ (run : Nat → State) (p : Nat), (∀ n, Move (run n) (run (n + 1))) → NoInterrupts run p

/-- R126: no step clears the refusal mark. -/
def Obligations.RefusalMarkIsNeverCleared : Prop :=
  ∀ (s u : State) (m : Refusal), step s = .next u → s.refusal = some m → u.refusal = some m

/-- R50, R92, R111: no step of any agent writes a general register, a control field, `PSTATE.EL`, the
VMID, the program or its text of any PE, or a parameter, or moves an agent to another domain. -/
def Obligations.NoStepWritesRegistersOrLevel : Prop :=
  ∀ (s u : State), step s = .next u →
    u.params = s.params ∧
    (∀ a : Nat, (u.agents[a]?).map Agent.domain = (s.agents[a]?).map Agent.domain) ∧
    ∀ (p : Nat) (pe : Pe), s.pe? p = some pe →
      ∃ pe', u.pe? p = some pe' ∧ pe' = { pe with pc := pe'.pc, fault := pe'.fault } ∧
        (pe'.pc = pe.pc ∨ pe'.pc = pe.pc + 4#64)

/-! ### Invariants -/

/-- The invariant `State.wf` (R26, R29, R30, R32, R36, R80, R95, R109): every TLB is a finite set of
entry records, pending requests are distinct and already issued, their ranges are the instruction's,
texts are canonical, Exception levels are implemented, and nothing pends under `immediate`. Every
step keeps it. -/
def Obligations.StepKeepsTheSystemWellFormed : Prop :=
  ∀ s u : State, s.wf = true → step s = .next u → u.wf = true

/-- The same invariant at reset, whatever the free values are. -/
def Obligations.ResetIsWellFormed : Prop :=
  State.reset.wf = true

/-- R86: every step keeps every pending request inside its issuer's domain. -/
def Obligations.StepKeepsRequestsInTheirDomain : Prop :=
  ∀ s u : State, PendingInDomain s → step s = .next u → PendingInDomain u

/-- R125, R126: while every PE is in a program of this spec that ends below `2^64`, a step sets no
refusal mark and keeps that so; the only stop is a PE that has a fault recorded (R103). -/
def Obligations.LaunchedProgramsAreNeverRefused : Prop :=
  ∀ s : State, s.launched = true → s.refusal = none →
    (∃ u, step s = .next u ∧ u.launched = true ∧ u.refusal = none) ∨
      ∃ p pe r, s.turn = .instruction p ∧ s.pe? p = some pe ∧ pe.fault = some r ∧
        step s = .fault (.peStopped r)

/-- R125: from a final state of programs of this spec every step leaves a final state: no PE changes,
nothing pends, and only a fill adds an entry. -/
def Obligations.FinalStatesStayFinal : Prop :=
  ∀ s : State, s.launched = true → s.final = true →
    ∃ u, step s = .next u ∧ u.launched = true ∧ u.final = true ∧ (∀ p, u.pe? p = s.pe? p) ∧
      ∀ (a : Nat) (ag ag' : Agent), s.agents[a]? = some ag → u.agents[a]? = some ag' →
        ∀ e ∈ ag'.tlb, e ∈ ag.tlb ∨ s.turn = .fill a e

/-- R34, R115: what the spec says of reset: nothing pends anywhere and no fault is recorded; and so
no refusal, and no PE has a program (R125). -/
def Obligations.ResetHasNothingPendingAndNoFault : Prop :=
  State.reset.nothingPending = true ∧ State.reset.noFault = true ∧ State.reset.refusal = none ∧
    ∀ p pe, State.reset.pe? p = some pe → pe.program = none

/-- The model's choice at reset, not the spec's (logs 7, 8 and 10): agent 0 is a PE whose registers
and control fields are zero, at the highest implemented Exception level. -/
def Obligations.ResetRegistersAsTheLogNames : Prop :=
  ∃ pe, State.reset.pe? 0 = some pe ∧ (∀ t, pe.readX t = 0#64) ∧ pe.pc = 0#64 ∧
    pe.scr = ⟨false, false, false⟩ ∧ pe.hcr = ⟨false, false, false, false⟩ ∧
    pe.hfgitr = ⟨false⟩ ∧ pe.currentVmid = 0#16 ∧
    pe.el = State.reset.params.highestEl

/-- Log 11: one instruction placed where the PE whose turn it is fetches next is what the next step
runs. -/
def Obligations.PlacedInstructionIsRunNext : Prop :=
  ∀ (s : State) (p : Nat) (pe : Pe) (i : Instr),
    s.turn = .instruction p → s.pe? p = some pe → pe.pc.toNat % 4 = 0 →
      step (s.withFetchWord 32 (encode i).toNat) =
        passing (exec i (s.withFetchWord 32 (encode i).toNat))
end

