-- ==== Sys2Proof/Laws/Memory.lean ====
section
/-! SUPPORT. The laws of byte memory: a read after a write, and that writes keep the canonical form. -/

namespace Sys2Proof.Machine

theorem Memory.wf_iff (m : Memory) :
    m.wf = true ↔ m.Pairwise (fun x y => x.1 < y.1) ∧ ∀ c ∈ m, c.1 < 2 ^ 64 := by
  simp [Memory.wf]

theorem Memory.read_none_of_below {m : Memory} {a : Nat} (h : ∀ c ∈ m, a < c.1) :
    m.read a = none := by
  induction m with
  | nil => rfl
  | cons c m ih =>
    have hc := h c (by simp)
    rw [Memory.read, if_neg (by omega)]
    exact ih fun d hd => h d (by simp [hd])

/-- Reading the byte just written, or another one, in a memory in canonical form. -/
theorem Memory.read_insert (m : Memory) (a b : Nat) (v : Byte) :
    (m.insert a v).read b = if b = a then some v else m.read b := by
  induction m with
  | nil => rfl
  | cons c m ih =>
    obtain ⟨k, x⟩ := c
    unfold Memory.insert
    split
    · rfl
    · split
      · subst_vars
        simp only [Memory.read]
        split <;> rfl
      · simp only [Memory.read, ih]
        split <;> split <;> first | rfl | omega

theorem Memory.read_write (m : Memory) (a : Word) (b : Nat) (v : Byte) :
    (m.write a v).read b = if b = a.toNat then some v else m.read b :=
  m.read_insert a.toNat b v

theorem Memory.mem_insert {m : Memory} {a : Nat} {v : Byte} {c : Host.Cell}
    (h : c ∈ m.insert a v) : c = (a, v) ∨ c ∈ m := by
  induction m with
  | nil => simpa [Memory.insert] using h
  | cons d m ih =>
    unfold Memory.insert at h
    split at h
    · simpa using h
    · split at h
      · simp only [List.mem_cons] at h ⊢
        tauto
      · simp only [List.mem_cons] at h ⊢
        rcases h with h | h
        · exact .inr (.inl h)
        · rcases ih h with h | h
          · exact .inl h
          · exact .inr (.inr h)

theorem Memory.pairwise_insert {m : Memory} (h : m.Pairwise fun x y => x.1 < y.1) (a : Nat)
    (v : Byte) : (m.insert a v).Pairwise fun x y => x.1 < y.1 := by
  induction m with
  | nil => simp [Memory.insert]
  | cons d m ih =>
    obtain ⟨hd, hm⟩ := List.pairwise_cons.1 h
    unfold Memory.insert
    split
    · refine List.pairwise_cons.2 ⟨fun c hc => ?_, h⟩
      rcases List.mem_cons.1 hc with rfl | hc
      · assumption
      · have := hd c hc
        simp only at *
        omega
    · split
      · subst_vars
        exact List.pairwise_cons.2 ⟨hd, hm⟩
      · refine List.pairwise_cons.2 ⟨fun c hc => ?_, ih hm⟩
        rcases Memory.mem_insert hc with rfl | hc
        · simp only
          omega
        · exact hd c hc

/-- Writing a byte keeps the canonical form. -/
theorem Memory.wf_write {m : Memory} (h : m.wf = true) (a : Word) (v : Byte) :
    (m.write a v).wf = true := by
  rw [Memory.wf_iff] at h ⊢
  refine ⟨Memory.pairwise_insert h.1 _ _, fun c hc => ?_⟩
  rcases Memory.mem_insert hc with rfl | hc
  · exact a.isLt
  · exact h.2 c hc

/-- Writing bytes keeps the canonical form. -/
theorem Memory.wf_writeBytes {m : Memory} (h : m.wf = true) (a : Word) (bs : List Byte) :
    (m.writeBytes a bs).wf = true := by
  induction bs generalizing m a with
  | nil => exact h
  | cons b bs ih => exact ih (Memory.wf_write h a b) (a + 1)

/-- Loading a program keeps the canonical form of the text. -/
theorem load_text_wf {pe : Pe} (h : pe.text.wf = true) (base : Word) (words : List InstrWord) :
    (pe.load base words).text.wf = true :=
  Memory.wf_writeBytes h base _

/-- The text of a PE at reset lists nothing, in canonical form. -/
theorem reset_text_wf (c : Params) : (Pe.reset c).text.wf = true := rfl

/-- The four bytes of a word written at an aligned address read back (R37). -/
theorem read_writeBytes_four (m : Memory) (a : Word) (h : a.toNat % 4 = 0) (c0 c1 c2 c3 : Byte) :
    (m.writeBytes a [c0, c1, c2, c3]).read a.toNat = some c0 ∧
      (m.writeBytes a [c0, c1, c2, c3]).read (a.toNat + 1) = some c1 ∧
      (m.writeBytes a [c0, c1, c2, c3]).read (a.toNat + 2) = some c2 ∧
      (m.writeBytes a [c0, c1, c2, c3]).read (a.toNat + 3) = some c3 := by
  have hlt := a.isLt
  have e1 : (a + 1).toNat = a.toNat + 1 := by
    rw [BitVec.toNat_add]
    simp
    omega
  have e2 : (a + 1 + 1).toNat = a.toNat + 2 := by
    rw [BitVec.toNat_add, e1]
    simp
    omega
  have e3 : (a + 1 + 1 + 1).toNat = a.toNat + 3 := by
    rw [BitVec.toNat_add, e2]
    simp
    omega
  simp only [Memory.writeBytes, Memory.read_write, e1, e2, e3]
  simp

end Sys2Proof.Machine
end

