-- ==== Sys2Proof/Laws/State.lean ====
section
/-! SUPPORT. The small lemmas of the state: what each named operation does to each field, and what
looking agents up gives afterwards. -/

namespace Sys2Proof.Machine

section fields
variable (s : State) (a p : Nat) (f : Agent → Agent) (g : Pe → Pe) (ag : Agent) (pe : Pe)
variable (reason : FaultReason) (w : InstrWord) (v : Word)

@[simp] theorem modifyAgent_params : (s.modifyAgent a f).params = s.params := rfl
@[simp] theorem modifyAgent_turn : (s.modifyAgent a f).turn = s.turn := rfl
@[simp] theorem modifyAgent_draws : (s.modifyAgent a f).draws = s.draws := rfl
@[simp] theorem modifyAgent_nextRequest : (s.modifyAgent a f).nextRequest = s.nextRequest := rfl
@[simp] theorem modifyAgent_refusal : (s.modifyAgent a f).refusal = s.refusal := rfl
@[simp] theorem modifyAgent_agents : (s.modifyAgent a f).agents = s.agents.modify a f := rfl

@[simp] theorem modifyPe_params : (s.modifyPe p g).params = s.params := rfl
@[simp] theorem modifyPe_turn : (s.modifyPe p g).turn = s.turn := rfl
@[simp] theorem modifyPe_draws : (s.modifyPe p g).draws = s.draws := rfl
@[simp] theorem modifyPe_nextRequest : (s.modifyPe p g).nextRequest = s.nextRequest := rfl
@[simp] theorem modifyPe_refusal : (s.modifyPe p g).refusal = s.refusal := rfl
@[simp] theorem modifyPe_agents : (s.modifyPe p g).agents = s.agents.modify p (Agent.mapPe g) := rfl

@[simp] theorem pass_params : s.pass.params = s.params := rfl
@[simp] theorem pass_agents : s.pass.agents = s.agents := rfl
@[simp] theorem pass_turn : s.pass.turn = Config.schedule s.draws := rfl
@[simp] theorem pass_draws : s.pass.draws = s.draws + 1 := rfl
@[simp] theorem pass_nextRequest : s.pass.nextRequest = s.nextRequest := rfl
@[simp] theorem pass_refusal : s.pass.refusal = s.refusal := rfl

@[simp] theorem raise_params : (s.raise p reason w).params = s.params := rfl
@[simp] theorem raise_turn : (s.raise p reason w).turn = s.turn := rfl
@[simp] theorem raise_draws : (s.raise p reason w).draws = s.draws := rfl
@[simp] theorem raise_nextRequest : (s.raise p reason w).nextRequest = s.nextRequest := rfl
@[simp] theorem raise_refusal : (s.raise p reason w).refusal = s.refusal := rfl

@[simp] theorem issue_params : (s.issue p pe v).params = s.params := rfl
@[simp] theorem issue_turn : (s.issue p pe v).turn = s.turn := rfl
@[simp] theorem issue_draws : (s.issue p pe v).draws = s.draws := rfl
@[simp] theorem issue_nextRequest : (s.issue p pe v).nextRequest = s.nextRequest + 1 := rfl
@[simp] theorem issue_refusal : (s.issue p pe v).refusal = s.refusal := rfl

@[simp] theorem mapPe_domain : (ag.mapPe g).domain = ag.domain := rfl
@[simp] theorem mapPe_tlb : (ag.mapPe g).tlb = ag.tlb := rfl
@[simp] theorem mapPe_pending : (ag.mapPe g).pending = ag.pending := rfl
@[simp] theorem mapPe_kind : (ag.mapPe g).kind = ag.kind.mapPe g := rfl

@[simp] theorem advance_x : pe.advance.x = pe.x := rfl
@[simp] theorem advance_pc : pe.advance.pc = pe.pc + 4#64 := rfl
@[simp] theorem advance_el : pe.advance.el = pe.el := rfl
@[simp] theorem advance_scr : pe.advance.scr = pe.scr := rfl
@[simp] theorem advance_hcr : pe.advance.hcr = pe.hcr := rfl
@[simp] theorem advance_hfgitr : pe.advance.hfgitr = pe.hfgitr := rfl
@[simp] theorem advance_currentVmid : pe.advance.currentVmid = pe.currentVmid := rfl
@[simp] theorem advance_fault : pe.advance.fault = pe.fault := rfl
@[simp] theorem advance_program : pe.advance.program = pe.program := rfl
@[simp] theorem advance_text : pe.advance.text = pe.text := rfl

end fields

@[simp] theorem kind_mapPe_pe (g : Pe → Pe) (core : Pe) :
    (AgentKind.pe core).mapPe g = .pe (g core) := rfl

@[simp] theorem kind_mapPe_mmu (g : Pe → Pe) : AgentKind.systemMmu.mapPe g = .systemMmu := rfl

@[simp] theorem kind_pe?_pe (core : Pe) : (AgentKind.pe core).pe? = some core := rfl

@[simp] theorem kind_pe?_mmu : AgentKind.systemMmu.pe? = none := rfl

@[simp] theorem kind_pe?_mapPe (g : Pe → Pe) (k : AgentKind) :
    (k.mapPe g).pe? = k.pe?.map g := by
  cases k <;> rfl

theorem kind_of_pe? {k : AgentKind} {core : Pe} (h : k.pe? = some core) : k = .pe core := by
  cases k with
  | pe c => exact congrArg AgentKind.pe (Option.some.inj h)
  | systemMmu => cases h

/-- Looking an agent up after one agent changed. -/
theorem modifyAgent_lookup (s : State) (a b : Nat) (f : Agent → Agent) :
    (s.modifyAgent a f).agents[b]? = (s.agents[b]?).map (if a = b then f else id) := by
  rw [modifyAgent_agents, List.getElem?_modify]
  split <;> simp

/-- Looking an agent up after one PE changed. -/
theorem modifyPe_lookup (s : State) (p b : Nat) (g : Pe → Pe) :
    (s.modifyPe p g).agents[b]? = (s.agents[b]?).map (if p = b then Agent.mapPe g else id) :=
  modifyAgent_lookup s p b (Agent.mapPe g)

theorem pe?_eq_some {s : State} {p : Nat} {pe : Pe} :
    s.pe? p = some pe ↔ ∃ ag, s.agents[p]? = some ag ∧ ag.kind = .pe pe := by
  constructor
  · intro h
    unfold State.pe? at h
    split at h
    · exact ⟨_, ‹_›, kind_of_pe? h⟩
    · cases h
  · rintro ⟨ag, h, hk⟩
    simp [State.pe?, h, hk]

/-- The PEs after one PE changed. -/
theorem modifyPe_pe? (s : State) (p q : Nat) (g : Pe → Pe) :
    (s.modifyPe p g).pe? q = (s.pe? q).map (if p = q then g else id) := by
  unfold State.pe?
  rw [modifyPe_lookup]
  cases s.agents[q]? with
  | none => rfl
  | some ag => by_cases h : p = q <;> simp [h]

/-- `SameISDomain` reads the domain numbers alone. -/
theorem sameDomain_congr {s u : State}
    (h : ∀ b : Nat, (u.agents[b]?).map Agent.domain = (s.agents[b]?).map Agent.domain) (p a : Nat) :
    u.sameDomain p a = s.sameDomain p a := by
  have hp := h p
  have ha := h a
  unfold State.sameDomain
  rcases hu : u.agents[p]? with _ | x <;> rcases hs : s.agents[p]? with _ | y <;>
    rcases hu' : u.agents[a]? with _ | x' <;> rcases hs' : s.agents[a]? with _ | y' <;>
    simp_all

/-- `SameISDomain` is reflexive on agents (`10_state.md` R28). -/
theorem sameDomain_self {s : State} {p : Nat} {ag : Agent} (h : s.agents[p]? = some ag) :
    s.sameDomain p p = true := by
  simp [State.sameDomain, h]

/-- Nothing is in flight exactly when nothing pends (R118). -/
theorem inFlight_nil_iff {s : State} : InFlight s [] ↔ s.nothingPending = true := by
  unfold InFlight State.nothingPending
  simp only [List.not_mem_nil, false_iff, not_exists, not_and, List.all_eq_true,
    List.isEmpty_iff, List.eq_nil_iff_forall_not_mem]
  constructor
  · intro h ag hag r
    obtain ⟨a, ha⟩ := List.getElem?_of_mem hag
    exact h a r ag ha
  · exact fun h a r ag ha => h ag (List.mem_of_getElem? ha) r

/-- Raising at PE `p` sets its fault record and nothing else of any agent (R97, R98). -/
theorem raise_lookup (s : State) (p b : Nat) (reason : FaultReason) (w : InstrWord) :
    (s.raise p reason w).agents[b]? =
      (s.agents[b]?).map
        (if p = b then Agent.mapPe (fun pe => { pe with fault := some ⟨reason, pe.pc, w⟩ })
          else id) :=
  modifyPe_lookup s p b _

/-- What an issue by PE `p` leaves of agent `b` (R90). -/
theorem issue_lookup (s : State) (p b : Nat) (pe : Pe) (v : Word) :
    (s.issue p pe v).agents[b]? =
      (s.agents[b]?).map fun ag =>
        (if p = b then Agent.mapPe Pe.advance else id) (issueAt s p pe v b ag) := by
  unfold State.issue
  rw [modifyPe_lookup]
  simp [List.getElem?_mapIdx, Option.map_map, Function.comp_def]

theorem issueAt_kind (s : State) (p : Nat) (pe : Pe) (v : Word) (a : Nat) (ag : Agent) :
    (issueAt s p pe v a ag).kind = ag.kind := by
  unfold issueAt deliver
  split
  · split <;> rfl
  · rfl

theorem issueAt_domain (s : State) (p : Nat) (pe : Pe) (v : Word) (a : Nat) (ag : Agent) :
    (issueAt s p pe v a ag).domain = ag.domain := by
  unfold issueAt deliver
  split
  · split <;> rfl
  · rfl

/-- The PEs after an issue: the issuer has its `pc` advanced, the others are as they were (R90). -/
theorem issue_pe? (s : State) (p q : Nat) (pe : Pe) (v : Word) :
    (s.issue p pe v).pe? q = (s.pe? q).map (if p = q then Pe.advance else id) := by
  unfold State.pe?
  rw [issue_lookup]
  cases s.agents[q]? with
  | none => rfl
  | some ag =>
    by_cases h : p = q
    · simp [h, issueAt_kind]
    · simp [h, issueAt_kind]

end Sys2Proof.Machine
end

