-- ==== Sys2Proof/Laws/Tlb.lean ====
section
/-! SUPPORT. The laws of TLBs as sets: membership after each operation, and that every operation
keeps the set well formed. -/

namespace Sys2Proof.Machine

theorem Tlb.wf_iff (c : Params) (t : Tlb) :
    t.wf c = true ↔ t.Nodup ∧ ∀ e ∈ t, e.wf c = true := by
  simp [Tlb.wf]

@[simp] theorem Tlb.mem_add (t : Tlb) (e x : TlbEntry) : x ∈ t.add e ↔ x = e ∨ x ∈ t := by
  unfold Tlb.add
  split
  · next h =>
    have he : e ∈ t := by simpa using h
    constructor
    · exact .inr
    · rintro (rfl | h)
      · exact he
      · exact h
  · simp

@[simp] theorem Tlb.mem_without (t : Tlb) (e x : TlbEntry) : x ∈ t.without e ↔ x ∈ t ∧ x ≠ e := by
  simp [Tlb.without]

/-- What is left after a perform (R91). -/
@[simp] theorem Tlb.mem_remove (t : Tlb) (q : Option Selector) (also : List TlbEntry)
    (x : TlbEntry) : x ∈ t.remove q also ↔ x ∈ t ∧ requires q x = false ∧ x ∉ also := by
  simp [Tlb.remove]

theorem Tlb.wf_add {c : Params} {t : Tlb} {e : TlbEntry} (h : t.wf c = true)
    (he : e.wf c = true) : (t.add e).wf c = true := by
  rw [Tlb.wf_iff] at h ⊢
  refine ⟨?_, fun x hx => ?_⟩
  · unfold Tlb.add
    split
    · exact h.1
    · next hc => exact List.nodup_cons.2 ⟨by simpa using hc, h.1⟩
  · rcases (Tlb.mem_add t e x).1 hx with rfl | hx
    · exact he
    · exact h.2 x hx

/-- Taking entries out keeps a TLB well formed. -/
theorem Tlb.wf_filter {c : Params} {t : Tlb} (h : t.wf c = true) (f : TlbEntry → Bool) :
    Tlb.wf c (t.filter f) = true := by
  rw [Tlb.wf_iff] at h ⊢
  exact ⟨h.1.filter f, fun x hx => h.2 x (List.mem_filter.1 hx).1⟩

theorem Tlb.wf_without {c : Params} {t : Tlb} (h : t.wf c = true) (e : TlbEntry) :
    (t.without e).wf c = true :=
  Tlb.wf_filter h _

theorem Tlb.wf_remove {c : Params} {t : Tlb} (h : t.wf c = true) (q : Option Selector)
    (also : List TlbEntry) : (t.remove q also).wf c = true :=
  Tlb.wf_filter h _

/-- The entries of any list, as a set, are a well-formed TLB. -/
theorem Tlb.wf_ofList (c : Params) (l : List TlbEntry) : (Tlb.ofList c l).wf c = true := by
  induction l with
  | nil => rfl
  | cons e l ih =>
    show Tlb.wf c (if e.wf c then Tlb.add (Tlb.ofList c l) e else Tlb.ofList c l) = true
    split
    · exact Tlb.wf_add ih ‹_›
    · exact ih

end Sys2Proof.Machine
end

