-- ==== Sys2Proof/Laws/Performer.lean ====
section
/-! SUPPORT. What the perform, evict and fill steps do to each field and each agent. -/

namespace Sys2Proof.Machine

section fields
variable (s : State) (a id : Nat) (also : List TlbEntry) (e : TlbEntry)

@[simp] theorem perform_params : (s.perform a id also).params = s.params := by
  unfold State.perform
  split <;> rfl

@[simp] theorem perform_refusal : (s.perform a id also).refusal = s.refusal := by
  unfold State.perform
  split <;> rfl

@[simp] theorem perform_nextRequest : (s.perform a id also).nextRequest = s.nextRequest := by
  unfold State.perform
  split <;> rfl

@[simp] theorem evict_params : (s.evict a e).params = s.params := rfl
@[simp] theorem evict_refusal : (s.evict a e).refusal = s.refusal := rfl
@[simp] theorem evict_nextRequest : (s.evict a e).nextRequest = s.nextRequest := rfl

@[simp] theorem fill_params : (s.fill a e).params = s.params := by
  unfold State.fill
  split <;> rfl

@[simp] theorem fill_refusal : (s.fill a e).refusal = s.refusal := by
  unfold State.fill
  split <;> rfl

@[simp] theorem fill_nextRequest : (s.fill a e).nextRequest = s.nextRequest := by
  unfold State.fill
  split <;> rfl

end fields

/-- One agent's part in a perform turn for request number `id` (R91). -/
def performAt (id : Nat) (also : List TlbEntry) (ag : Agent) : Agent :=
  match ag.pending.find? fun r => r.id == id with
  | some r => ag.perform r also
  | none => ag

/-- Looking an agent up after a perform turn: only agent `a` changed. -/
theorem perform_lookup (s : State) (a id : Nat) (also : List TlbEntry) (b : Nat) :
    (s.perform a id also).agents[b]? =
      (s.agents[b]?).map (if a = b then performAt id also else fun ag => ag) := by
  unfold State.perform State.pendingRequest performAt
  by_cases h : a = b
  · subst h
    rcases ha : s.agents[a]? with _ | ag
    · simp [ha]
    · rcases hf : ag.pending.find? (fun r => r.id == id) with _ | r <;> simp [ha, hf]
  · rw [if_neg h]
    split
    · rw [modifyAgent_lookup, if_neg h]
      rfl
    · simp

/-- Looking an agent up after an evict turn (R51). -/
theorem evict_lookup (s : State) (a : Nat) (e : TlbEntry) (b : Nat) :
    (s.evict a e).agents[b]? =
      (s.agents[b]?).map
        (if a = b then fun ag => { ag with tlb := ag.tlb.without e } else id) :=
  modifyAgent_lookup s a b _

/-- Looking an agent up after a fill turn (R51). -/
theorem fill_lookup (s : State) (a : Nat) (e : TlbEntry) (b : Nat) :
    (s.fill a e).agents[b]? =
      (s.agents[b]?).map
        (if fillAllowed s a e = true ∧ a = b then fun ag => { ag with tlb := ag.tlb.add e }
          else id) := by
  unfold State.fill
  by_cases hf : fillAllowed s a e = true
  · rw [if_pos hf, modifyAgent_lookup]
    simp [hf]
  · rw [if_neg hf]
    simp [hf]

/-- A request of a number is found where the pending requests have distinct numbers. -/
theorem find_pending {l : List Request} (h : l.Pairwise fun r r' => r.id ≠ r'.id) {r : Request}
    (hr : r ∈ l) : (l.find? fun r' => r'.id == r.id) = some r := by
  induction l with
  | nil => cases hr
  | cons x l ih =>
    rcases List.mem_cons.1 hr with rfl | hr
    · simp
    · rw [List.find?_cons_of_neg (by simpa using (List.pairwise_cons.1 h).1 r hr)]
      exact ih (List.pairwise_cons.1 h).2 hr

/-- Taking one request out leaves the others, where they are distinct. -/
theorem erase_pending {l : List Request} (h : l.Pairwise fun r r' => r.id ≠ r'.id) (r : Request) :
    l.erase r = l.filter fun r' => r' != r :=
  List.Nodup.erase_eq_filter (h.imp fun hne heq => hne (congrArg Request.id heq)) r

/-- Taking one request out does not change which request another number finds. -/
theorem find_erase {l : List Request} {i j : Nat} (h : i ≠ j) {r : Request} (hr : r.id = i) :
    ((l.erase r).find? fun x => x.id == j) = l.find? fun x => x.id == j := by
  induction l with
  | nil => rfl
  | cons x l ih =>
    rw [List.erase_cons]
    split
    · next hx =>
      have hx' : x = r := by simpa using hx
      rw [List.find?_cons_of_neg]
      rw [hx', hr]
      simpa using h
    · simp only [List.find?_cons, ih]

end Sys2Proof.Machine
end

