-- ==== Sys2Proof/Laws/Select.lean ====
section
/-! SUPPORT. What the selection of entries comes to: the operand's bounds, and the required predicate
for a granule the operand names. -/

namespace Sys2Proof.Machine

/-- The numbers of an operand (R95): a range of `2^13` to `2^37` bytes from a granule-aligned base
below `2^64`. -/
theorem operand_bounds (c : Params) (g : Granule) (v : Word) :
    2 ^ 13 ≤ operandSize g v ∧ operandSize g v ≤ 2 ^ 37 ∧ operandBase c g v < 2 ^ 64 ∧
      operandBase c g v % granuleSize g = 0 := by
  have hscale : operandScale v < 4 := (v.extractLsb' 44 2).isLt
  have hnum : operandNum v < 32 := (v.extractLsb' 39 5).isLt
  have hsize : 2 ^ 13 ≤ operandSize g v ∧ operandSize g v ≤ 2 ^ 37 := by
    unfold operandSize rangeSize
    generalize operandScale v = x at *
    generalize operandNum v = y at *
    cases g <;> interval_cases x <;> simp [granuleSize, granuleShift] <;> omega
  have haligned : operandBase c g v % granuleSize g = 0 := by
    unfold operandBase
    cases g <;>
      simp [baseAddress, granuleShift, granuleSize, BitVec.toNat_shiftLeft, Nat.shiftLeft_eq]
  exact ⟨hsize.1, hsize.2, (baseAddress c.baseExt g (operandBaf v)).isLt, haligned⟩

/-- The instruction targets the EL2&0 or the EL1&0 regime, never another (R80). -/
theorem targetRegime_ne_other (c : Params) (pe : Pe) : targetRegime c pe ≠ .other := by
  unfold targetRegime
  split <;> simp

/-- A Reserved TG requires nothing (R85). -/
theorem requirement_reserved {v : Word} (h : granuleOf (operandTg v) = none) (s : State) (p : Nat)
    (pe : Pe) (a : Nat) (kind : AgentKind) : requirement s p pe v a kind = none := by
  simp [requirement, h]

/-- The required predicate (R89), for a granule the operand names. -/
theorem requires_requirement_iff {v : Word} {g : Granule} (h : granuleOf (operandTg v) = some g)
    (s : State) (p : Nat) (pe : Pe) (a : Nat) (kind : AgentKind) (e : TlbEntry) :
    requires (requirement s p pe v a kind) e = true ↔
      (s.sameDomain p a = true ∧ unpredictableRange g v = false ∧
        agentOwes s.params p pe a kind = true) ∧
      (selectorFor s p pe v g kind).selects e = true := by
  unfold requirement
  rw [h]
  simp only
  split <;> simp_all [requires]

/-- What an issue at one agent keeps of its pending requests: all of them. -/
theorem mem_issueAt_pending_of_mem {ag : Agent} {r : Request} (h : r ∈ ag.pending) (s : State)
    (p : Nat) (pe : Pe) (v : Word) (a : Nat) : r ∈ (issueAt s p pe v a ag).pending := by
  unfold issueAt deliver
  split
  · split
    · exact List.mem_append_left _ h
    · exact h
  · exact h

/-- A request that pends after an issue pended before, or is the one just issued, in the domain. -/
theorem mem_issueAt_pending {s : State} {p : Nat} {pe : Pe} {v : Word} {a : Nat} {ag : Agent}
    {r : Request} (h : r ∈ (issueAt s p pe v a ag).pending) :
    r ∈ ag.pending ∨ (s.sameDomain p a = true ∧ r = requestFor s p pe v a ag.kind) := by
  unfold issueAt deliver at h
  split at h
  · split at h
    · rcases List.mem_append.1 h with h | h
      · exact .inl h
      · exact .inr ⟨‹_›, List.mem_singleton.1 h⟩
    · exact .inl h
  · exact .inl h

end Sys2Proof.Machine
end

