-- ==== Sys2Proof/Laws/Step.lean ====
section
/-! SUPPORT. What the meaning and one step can do, said once: the provers cite these instead of
unfolding `step`. -/

namespace Sys2Proof.Machine

theorem executing_ok {s : State} {p : Nat} {pe : Pe} (h : Executes s p pe) :
    s.executing = .ok (p, pe) := by
  simp [State.executing, h.turn, h.here, Pe.stopped, h.noFault]

theorem executes_of_executing {s : State} {p : Nat} {pe : Pe} (h : s.executing = .ok (p, pe)) :
    Executes s p pe := by
  unfold State.executing at h
  split at h
  · next q hq =>
    split at h
    · cases h
    · next core hc =>
      split at h
      · cases h
      · next hs =>
        cases h
        refine ⟨hq, hc, ?_⟩
        unfold Pe.stopped at hs
        split at hs
        · cases hs
        · assumption
  · cases h

/-- The meaning, for the PE that executes. -/
theorem exec_tlbi {s : State} {p : Nat} {pe : Pe} (h : Executes s p pe) (t : BitVec 5) :
    exec (.tlbiRvale1is t) s = tlbiRvale1isBy s t p pe := by
  simp [exec, execTlbiRvale1is, executing_ok h]

/-- Every way an instruction can come to a next state: a raise, an issue or the refusal mark. -/
theorem exec_next_cases {i : Instr} {s u : State} (h : exec i s = .next u) :
    ∃ t p pe, i = .tlbiRvale1is t ∧ Executes s p pe ∧
      ((∃ reason, access s p pe = some reason ∧ pe.pc ≠ lastPc ∧
          u = s.raise p reason (encode i)) ∨
        (access s p pe = none ∧ pe.pc ≠ lastPc ∧ u = s.issue p pe (pe.readX t)) ∨
        (pe.pc = lastPc ∧ s.refusal = none ∧ u = { s with refusal := some .noSuccessor })) := by
  cases i with
  | tlbiRvale1is t =>
    rcases hx : s.executing with f | ⟨p, pe⟩
    · simp [exec, execTlbiRvale1is, hx] at h
    · have he := executes_of_executing hx
      rw [exec_tlbi he] at h
      refine ⟨t, p, pe, rfl, he, ?_⟩
      unfold tlbiRvale1isBy at h
      by_cases hp : pe.pc = lastPc
      · rcases hr : s.refusal with _ | m
        · simp [hp, State.refuse, hr] at h
          exact .inr (.inr ⟨hp, rfl, h.symm⟩)
        · simp [hp, State.refuse, hr] at h
      · rcases ha : access s p pe with _ | reason
        · simp [ha, hp] at h
          exact .inr (.inl ⟨rfl, hp, h.symm⟩)
        · simp [ha, hp] at h
          exact .inl ⟨reason, rfl, hp, h.symm⟩

/-- Every way one step can come to a next state. In each, the turn is passed on at the end. -/
theorem step_next_cases {s u : State} (h : step s = .next u) :
    ∃ u₀, u = u₀.pass ∧
      ((∃ p, s.turn = .instruction p ∧ u₀ = s) ∨
        (∃ p r, s.turn = .instruction p ∧ s.refusal = none ∧ u₀ = { s with refusal := some r }) ∨
        (∃ p pe reason t, Executes s p pe ∧ pe.next = .run (.tlbiRvale1is t) ∧
          access s p pe = some reason ∧ pe.pc ≠ lastPc ∧
          u₀ = s.raise p reason (encode (.tlbiRvale1is t))) ∨
        (∃ p pe t, Executes s p pe ∧ pe.next = .run (.tlbiRvale1is t) ∧ access s p pe = none ∧
          pe.pc ≠ lastPc ∧ u₀ = s.issue p pe (pe.readX t)) ∨
        (∃ a id also, s.turn = .perform a id also ∧ u₀ = s.perform a id also) ∨
        (∃ a e, s.turn = .evict a e ∧ u₀ = s.evict a e) ∨
        (∃ a e, s.turn = .fill a e ∧ u₀ = s.fill a e)) := by
  unfold step at h
  split at h
  · next p ht =>
    rcases hi : instructionStep p s with u₀ | f | r <;> rw [hi] at h <;> cases h
    refine ⟨u₀, rfl, ?_⟩
    unfold instructionStep at hi
    split at hi
    · cases hi
      exact .inl ⟨p, ht, rfl⟩
    · next pe hpe =>
      split at hi
      · cases hi
        exact .inl ⟨p, ht, rfl⟩
      · cases hi
      · next r hr =>
        unfold State.refuse at hi
        split at hi
        · cases hi
          exact .inr (.inl ⟨p, r, ht, ‹_›, rfl⟩)
        · cases hi
      · next i hr =>
        obtain ⟨t, q, core, rfl, he, hc⟩ := exec_next_cases hi
        have hq : q = p := by
          have := he.turn
          rw [ht] at this
          cases this
          rfl
        subst hq
        have hcore : core = pe := Option.some.inj (he.here.symm.trans hpe)
        subst hcore
        rcases hc with ⟨reason, ha, hp, rfl⟩ | ⟨ha, hp, rfl⟩ | ⟨-, hn, rfl⟩
        · exact .inr (.inr (.inl ⟨q, core, reason, t, he, hr, ha, hp, rfl⟩))
        · exact .inr (.inr (.inr (.inl ⟨q, core, t, he, hr, ha, hp, rfl⟩)))
        · exact .inr (.inl ⟨q, _, ht, hn, rfl⟩)
  · next a id also ht =>
    cases h
    exact ⟨_, rfl, .inr (.inr (.inr (.inr (.inl ⟨a, id, also, ht, rfl⟩))))⟩
  · next a e ht =>
    cases h
    exact ⟨_, rfl, .inr (.inr (.inr (.inr (.inr (.inl ⟨a, e, ht, rfl⟩)))))⟩
  · next a e ht =>
    cases h
    exact ⟨_, rfl, .inr (.inr (.inr (.inr (.inr (.inr ⟨a, e, ht, rfl⟩)))))⟩

end Sys2Proof.Machine
end

