-- ==== Sys2Proof/Laws/Invariant.lean ====
section
/-! SUPPORT. The invariant agent by agent, and what a step does to the agents, said once for the
invariants. -/

namespace Sys2Proof.Machine

theorem agent_wf_iff (c : Params) (n : Nat) (ag : Agent) :
    ag.wf c n = true ↔
      ag.tlb.wf c = true ∧ ag.pending.Pairwise (fun r r' => r.id ≠ r'.id) ∧
        (∀ r ∈ ag.pending, r.id < n ∧ r.wf = true) ∧
        (c.completion = .pending ∨ ag.pending = []) ∧
        ∀ core, ag.kind.pe? = some core → core.wf c = true := by
  unfold Agent.wf
  simp only [Bool.and_eq_true, decide_eq_true_eq, List.all_eq_true, Bool.or_eq_true, beq_iff_eq,
    List.isEmpty_iff, and_assoc]
  cases ag.kind <;> simp

theorem agent_wf_of_lookup {s : State} (h : s.wf = true) {a : Nat} {ag : Agent}
    (ha : s.agents[a]? = some ag) : ag.wf s.params s.nextRequest = true := by
  unfold State.wf at h
  exact List.all_eq_true.1 h _ (List.mem_of_getElem? ha)

theorem wf_of_lookup {s : State}
    (h : ∀ (a : Nat) (ag : Agent), s.agents[a]? = some ag →
      ag.wf s.params s.nextRequest = true) : s.wf = true := by
  unfold State.wf
  refine List.all_eq_true.2 fun x hx => ?_
  obtain ⟨a, ha⟩ := List.getElem?_of_mem hx
  exact h a x ha

/-- What the instruction issues is a well-formed request (R80, R95). -/
theorem requestFor_wf (s : State) (p : Nat) (pe : Pe) (v : Word) (a : Nat) (kind : AgentKind) :
    (requestFor s p pe v a kind).wf = true := by
  unfold Request.wf requestFor requirement
  simp only
  split
  · next q hq =>
    split at hq
    · cases hq
    · next g _ =>
      split at hq
      · cases hq
        obtain ⟨h1, h2, h3, h4⟩ := operand_bounds s.params g v
        unfold Selector.wf selectorFor operandEnd
        simp only [Bool.and_eq_true, bne_iff_ne]
        exact ⟨⟨⟨⟨targetRegime_ne_other _ _, decide_eq_true h3⟩, decide_eq_true h4⟩,
          decide_eq_true (Nat.add_le_add_left h1 _)⟩,
          decide_eq_true (Nat.add_le_add_left h2 _)⟩
      · cases hq
  · rfl

/-- The change a step makes to one agent `a`: its domain stays; its PE stays, has a fault recorded,
or has run the instruction found at its `pc` and advanced. -/
structure AgentChange (s : State) (a : Nat) (ag ag' : Agent) : Prop where
  domain : ag'.domain = ag.domain
  pe : ag'.kind = ag.kind ∨
    (∃ pe r, ag.kind = .pe pe ∧ pe.fault = none ∧ s.turn = .instruction a ∧
      ag'.kind = .pe { pe with fault := some r }) ∨
    (∃ pe t, ag.kind = .pe pe ∧ pe.fault = none ∧ s.turn = .instruction a ∧
      pe.next = .run (.tlbiRvale1is t) ∧ pe.pc ≠ lastPc ∧ ag'.kind = .pe pe.advance)

/-- A step keeps the parameters and the agents, each changed as `AgentChange` says. -/
theorem step_changes {s u : State} (h : step s = .next u) :
    u.params = s.params ∧
      ∃ f : Nat → Agent → Agent, (∀ a : Nat, u.agents[a]? = (s.agents[a]?).map (f a)) ∧
        (∀ a ag, (f a ag).domain = ag.domain) ∧
        ∀ a ag, s.agents[a]? = some ag → AgentChange s a ag (f a ag) := by
  obtain ⟨u₀, rfl, hc⟩ := step_next_cases h
  rcases hc with ⟨p, ht, rfl⟩ | ⟨p, r, ht, hn, rfl⟩ | ⟨p, pe, reason, t, hx, hn, -, -, rfl⟩ |
    ⟨p, pe, t, hx, hn, -, hp, rfl⟩ | ⟨b, id, also, ht, rfl⟩ | ⟨b, e, ht, rfl⟩ | ⟨b, e, ht, rfl⟩
  · exact ⟨rfl, fun _ ag => ag, by simp, by simp, fun _ _ _ => ⟨rfl, .inl rfl⟩⟩
  · exact ⟨rfl, fun _ ag => ag, by simp, by simp, fun _ _ _ => ⟨rfl, .inl rfl⟩⟩
  · refine ⟨rfl, _, fun a => by rw [pass_agents, raise_lookup], fun a ag => by split <;> rfl,
      fun a ag ha => ⟨by split <;> rfl, ?_⟩⟩
    by_cases hpa : p = a
    · subst hpa
      obtain ⟨ag₀, h₀, hk⟩ := pe?_eq_some.1 hx.here
      rw [h₀] at ha
      cases ha
      rw [if_pos rfl, mapPe_kind, hk]
      exact .inr (.inl ⟨pe, _, rfl, hx.noFault, hx.turn, rfl⟩)
    · rw [if_neg hpa]
      exact .inl rfl
  · refine ⟨rfl, _, fun a => by rw [pass_agents, issue_lookup],
      fun a ag => by split <;> exact issueAt_domain _ _ _ _ _ _,
      fun a ag ha => ⟨by split <;> exact issueAt_domain _ _ _ _ _ _, ?_⟩⟩
    by_cases hpa : p = a
    · subst hpa
      obtain ⟨ag₀, h₀, hk⟩ := pe?_eq_some.1 hx.here
      rw [h₀] at ha
      cases ha
      rw [if_pos rfl, mapPe_kind, issueAt_kind, hk]
      exact .inr (.inr ⟨pe, t, rfl, hx.noFault, hx.turn, hn, hp, rfl⟩)
    · rw [if_neg hpa]
      exact .inl (issueAt_kind _ _ _ _ _ _)
  · have hperform : ∀ ag, (performAt id also ag).domain = ag.domain ∧
        (performAt id also ag).kind = ag.kind := by
      intro ag
      unfold performAt
      split <;> exact ⟨rfl, rfl⟩
    refine ⟨perform_params _ _ _ _, _, fun a => by rw [pass_agents, perform_lookup],
      fun a ag => ?_, fun a ag _ => ⟨?_, .inl ?_⟩⟩
    · split
      · exact (hperform ag).1
      · rfl
    · split
      · exact (hperform ag).1
      · rfl
    · split
      · exact (hperform ag).2
      · rfl
  · exact ⟨rfl, _, fun a => by rw [pass_agents, evict_lookup], fun a ag => by split <;> rfl,
      fun a ag _ => ⟨by split <;> rfl, .inl (by split <;> rfl)⟩⟩
  · exact ⟨fill_params _ _ _, _, fun a => by rw [pass_agents, fill_lookup],
      fun a ag => by split <;> rfl,
      fun a ag _ => ⟨by split <;> rfl, .inl (by split <;> rfl)⟩⟩

end Sys2Proof.Machine
end

