-- ==== Sys2Proof/Laws/PerInstr.lean ====
section
/-! SUPPORT. Statements about every instruction as syntax, one lemma per constructor. -/

namespace Sys2Proof.Laws

/-- The four bytes of a word make it up again (R37). -/
theorem byte_order_round_trip (w : InstrWord) :
    wordOfBytes (byteOfWord w 0) (byteOfWord w 1) (byteOfWord w 2) (byteOfWord w 3) = w := by
  apply BitVec.eq_of_getLsbD_eq
  intro k hk
  simp only [wordOfBytes, byteOfWord, BitVec.getLsbD_append, BitVec.getLsbD_extractLsb']
  split
  · next h => simp [h]
  · split
    · next h => rw [show 8 * 1 + (k - 8) = k by omega, decide_eq_true h, Bool.true_and]
    · split
      · next h => rw [show 8 * 2 + (k - 8 - 8) = k by omega, decide_eq_true h, Bool.true_and]
      · rw [show 8 * 3 + (k - 8 - 8 - 8) = k by omega, decide_eq_true (by omega), Bool.true_and]

end Sys2Proof.Laws

namespace Sys2Proof.Laws.EncodingLength

/-- The bytes of an encoded instruction are four, and put together again are its word (R37, R53). -/
def Statement (i : Instr) : Prop :=
  (bytesOfWord (encode i)).length = 4 ∧
    wordOfBytes (byteOfWord (encode i) 0) (byteOfWord (encode i) 1) (byteOfWord (encode i) 2)
      (byteOfWord (encode i) 3) = encode i

theorem tlbiRvale1is (t : BitVec 5) : Statement (.tlbiRvale1is t) :=
  ⟨rfl, byte_order_round_trip _⟩

end Sys2Proof.Laws.EncodingLength
end

