-- ==== Sys2Proof/Tests/Slice0.lean ====
section
/-! SUPPORT. Tests. Expected results are the spec's: the tables and programs of
`95_test_vectors.md`, or a rule worked by hand. Then one witness for the hypotheses of each statement
of Certificates/Slice0/Obligations.lean that has hypotheses. -/

namespace Sys2Proof.Tests

open Sys2Proof.Machine

/-! ### Decoding, assembling, well-formedness -/

/-- R55, bit by bit: fixed 1101010100, L 0, op0 01, op1 000, CRn 1000, CRm 0010, op2 101, Rt 00101. -/
theorem test_decode_bits :
    decode 0b11010101000010001000001010100101#32 = .instr (.tlbiRvale1is 5) := by decide

/-- Section 2 of the vectors: the bytes `BF 82 08 D5`, least significant first (R37). -/
theorem test_decode_bytes :
    decodeBytes [0xBF#8, 0x82#8, 0x08#8, 0xD5#8, 0x00#8] = .ok (.tlbiRvale1is 31, [0x00#8]) := by
  decide

/-- Section 2 of the vectors: op2 = 0b110 is `Unknown(w)`. -/
theorem test_decode_unknown : decode 0xD50882C0#32 = .unknown 0xD50882C0#32 := by decide

theorem test_decode_truncated :
    decodeBytes [0xA0#8, 0x82#8, 0x08#8] = .error (.truncated [0xA0#8, 0x82#8, 0x08#8]) := by
  decide

theorem test_decode_unknown_bytes :
    decodeBytes [0x1F#8, 0x20#8, 0x03#8, 0xD5#8] = .error (.unknownWord 0xD503201F#32) := by
  decide

theorem test_encode : encode (.tlbiRvale1is 30) = 0xD50882BE#32 := by decide

/-- R67: `SYS #0, C8, C2, #5, X3`. -/
theorem test_assemble_sys :
    Asm.assemble (.sys 0 8 2 5 (some (.x 3))) = some (.tlbiRvale1is 3) := by decide

/-- R66: `X31` is no register name. -/
theorem test_wellFormed_no_x31 : XReg.wellFormed (.x 31) = false := by decide

theorem test_wellFormed_line : Asm.wellFormed (.tlbiRvale1is (some (.x 31))) = false := by decide

/-- R53: each selector of the `SYS` spelling too wide for its field. -/
theorem test_wellFormed_selectors :
    [Asm.sys 8 8 2 5 none, .sys 0 16 2 5 none, .sys 0 8 16 5 none, .sys 0 8 2 8 none,
      .sys 0 8 2 5 (some (.x 40))].map Asm.wellFormed = [false, false, false, false, false] := by
  decide

/-- Every register number is admitted (R55). -/
theorem test_wellFormed_instr : (Instr.tlbiRvale1is 31).wellFormed = true := by decide

/-! ### Small systems -/

/-- The parameters of program 1: no EL2, no EL3, Non-secure, 16-bit ASIDs, nothing filled. -/
def plain : Params where
  haveTlbiRange := true
  haveEl2 := false
  haveEl3 := false
  el2IsAArch32 := .fixed false
  asidBitsImpl := .bits16
  asidBitsInUse := .fixed .bits16
  granules := [.g4K, .g16K, .g64K]
  vmidBits := .bits16
  baseExt := .sign
  rangeMatch := .overlap
  completion := .pending
  tlbFill := .fixed false
  secStateNoEl3 := .nonSecure

/-- EL2 and EL3 implemented. -/
def full : Params := { plain with haveEl2 := true, haveEl3 := true }

/-- A PE at EL1 at `0x80000` with every register `v`. -/
def peWith (v : Word) : Pe where
  x := Vector.replicate 31 v
  pc := 0x80000#64
  el := .el1
  scr := ⟨true, false, false⟩
  hcr := ⟨false, false, false, false⟩
  hfgitr := ⟨false⟩
  currentVmid := 5#16
  fault := none
  program := none
  text := []

/-- An agent of domain 0 or another with nothing pending. -/
def agentOf (kind : AgentKind) (domain : Nat) (tlb : Tlb) : Agent := ⟨kind, domain, tlb, []⟩

/-- A system in which it is PE 0's turn. -/
def system (c : Params) (agents : List Agent) : State := ⟨c, agents, .instruction 0, 0, 0, none⟩

/-- One PE alone. -/
def alone (c : Params) (pe : Pe) : State := system c [agentOf (.pe pe) 0 []]

/-- E1 of the sample TLB (section 4 of the vectors). -/
def e1 : TlbEntry :=
  ⟨true, true, 3, false, 0x0042#16, 5#16, .el10, .nonSecure, .g4K, 0x7F0000100000, 0x1000, 0⟩

/-- The sample TLB E1 to E15. -/
def sample : List TlbEntry :=
  [e1, { e1 with asid := 0x0043#16 },
    { e1 with global := true, asid := 0x0099#16, base := 0x7F0000103000 },
    { e1 with vmid := 6#16 }, { e1 with base := 0x7F0000104000 },
    { e1 with level := 2, global := true, base := 0x7F0000000000, size := 0x200000 },
    { e1 with granule := .g16K, size := 0x4000 }, { e1 with sec := .secure },
    { e1 with regime := .el20 }, { e1 with stage1 := false },
    { e1 with final := false, level := 2, base := 0x7F0000000000, size := 0x200000 },
    { e1 with base := 0x7F00000FF000 },
    { e1 with level := 0, global := true, base := 0x7F0000000000, size := 0x8000000000 },
    { e1 with global := true, sec := .secure, vmid := 0#16, base := 0x7F0000101000 },
    { e1 with global := true, sec := .secure, base := 0x7F0000101000 }]

/-- The numbers of the sample's entries that an execution by PE 0 requires of agent `a`. -/
def requiredOf (c : Params) (pe : Pe) (a : Nat) (agents : List Agent) (v : Word) : List Nat :=
  match agents[a]? with
  | some ag =>
    (sample.zipIdx.filter fun x =>
      requires (requirement (system c agents) 0 pe v a ag.kind) x.1).map fun x => x.2 + 1
  | none => []

/-- The same of the executing PE itself. -/
def requiredHere (c : Params) (pe : Pe) (v : Word) : List Nat :=
  requiredOf c pe 0 [agentOf (.pe pe) 0 []] v

/-! ### Vectors of the operand (section 3) -/

/-- The fields asid, scale, num, ttl, baf of an operand, and for a granule the base under `sign` and
under `zero`, the size, the effective TTL and whether the range is UNPREDICTABLE. -/
def operandRow (v : Word) : List Nat :=
  [(operandAsid v).toNat, operandScale v, operandNum v, (operandTtl v).toNat,
    (operandBaf v).toNat] ++
  match granuleOf (operandTg v) with
  | some g =>
    [(baseAddress .sign g (operandBaf v)).toNat, (baseAddress .zero g (operandBaf v)).toNat,
      operandSize g v, (effectiveTtl g (operandTtl v)).toNat, (unpredictableRange g v).toNat]
  | none => []

/-- V1, V2, V3, V4, V6, V8, V11, V13, V14, V16, V18. -/
theorem test_operand_vectors :
    [0x0001400000080000#64, 0xFFFF7F8000000000#64, 0x0007912000010000#64, 0x0000C04000000001#64,
      0x12343FFFFFFFFFFF#64, 0x0000402000040200#64, 0x0000401FFFFFFFFF#64, 0x00AB914000000801#64,
      0x0000E06000012345#64, 0x0000C02002000000#64, 0xFFFFFFFFFFFFFFFF#64].map operandRow =
    [[0x0001, 0, 0, 0, 0x80000, 0x80000000, 0x80000000, 0x2000, 0, 0],
      [0xFFFF, 3, 31, 0, 0, 0, 0, 0x200000000, 0, 0],
      [0x0007, 1, 2, 1, 0x10000, 0x40000000, 0x40000000, 0x300000, 0, 0],
      [0, 0, 0, 2, 1, 0x10000, 0x10000, 0x20000, 2, 1],
      [0x1234, 3, 31, 3, 0x1FFFFFFFFF],
      [0, 0, 0, 1, 0x40200, 0x40200000, 0x40200000, 0x2000, 1, 1],
      [0, 0, 0, 0, 0x1FFFFFFFFF, 0xFFFFFFFFFFFFF000, 0x0001FFFFFFFFF000, 0x2000, 0, 0],
      [0x00AB, 1, 2, 2, 0x801, 0x2004000, 0x2004000, 0x300000, 2, 1],
      [0, 2, 0, 3, 0x12345, 0x123450000, 0x123450000, 0x8000000, 3, 0],
      [0, 0, 0, 1, 0x2000000, 0x20000000000, 0x20000000000, 0x20000, 1, 1],
      [0xFFFF, 3, 31, 3, 0x1FFFFFFFFF, 0xFFFFFFFFFFFF0000, 0x001FFFFFFFFF0000, 0x2000000000, 3,
        0]] := by
  decide +kernel

/-- V5, V7, V9, V10, V12, V15: aligned, or not, for the level the TTL names. -/
theorem test_alignment_vectors :
    [unpredictableRange .g64K 0x0000C04000002000#64, unpredictableRange .g4K 0x0000402000040000#64,
      unpredictableRange .g4K 0x0000404000040200#64, unpredictableRange .g4K 0x0000404000040201#64,
      unpredictableRange .g16K 0x00AB914000000800#64,
      unpredictableRange .g64K 0x0000C02004000000#64] =
    [false, false, false, true, false, false] := by
  decide +kernel

/-! ### Vectors of the required set (section 4) -/

/-- Contexts cA, cB, cC, cD, cF of section 4. -/
def cA : Pe := peWith 0x004240E7F0000100#64
def cB : Pe := { cA with hcr := ⟨true, true, false, false⟩ }
def cD : Pe := { cA with scr := ⟨false, true, false⟩ }
def cF : Pe := { cA with scr := ⟨false, false, false⟩ }
def noEl2 : Params := { full with haveEl2 := false }
def asid8 : Params := { full with asidBitsInUse := .fixed .bits8 }
def contained : Params := { full with rangeMatch := .contained }

/-- M1 to M13. -/
theorem test_required_on_the_issuer :
    [requiredHere full cA 0x004240E7F0000100#64, requiredHere full cA 0x00424087F0000100#64,
      requiredHere contained cA 0x00424087F0000100#64, requiredHere full cB 0x004240E7F0000100#64,
      requiredHere noEl2 cA 0x004240E7F0000100#64, requiredHere full cD 0x004240E7F0000100#64,
      requiredHere asid8 cA 0x014240E7F0000100#64, requiredHere full cA 0x014240E7F0000100#64,
      requiredHere full cA 0x004240C7F0000100#64, requiredHere full cA 0x00428001FC000040#64,
      requiredHere asid8 cA 0x004240E7F0000100#64, requiredHere noEl2 cA 0x00424087F0000100#64,
      requiredHere full cF 0x004240E7F0000100#64] =
    [[1, 3], [1, 3, 6, 13], [1, 3], [9], [1, 3, 4], [8, 15], [3], [3], [], [7], [1, 3],
      [1, 3, 4, 6, 13], [8, 14, 15]] := by
  decide +kernel

/-- Issuer, a PE of its domain with another EEL2, one with the same, a PE outside, a System MMU. -/
def neighbours (pe : Pe) : List Agent :=
  [agentOf (.pe pe) 0 [], agentOf (.pe { pe with scr := { pe.scr with eel2 := !pe.scr.eel2 } }) 0 [],
    agentOf (.pe pe) 0 [], agentOf (.pe pe) 1 [], agentOf .systemMmu 0 []]

/-- A1 to A9. -/
theorem test_required_on_other_agents :
    [requiredOf full cA 1 (neighbours cA) 0x004240E7F0000100#64,
      requiredOf full cA 3 (neighbours cA) 0x004240E7F0000100#64,
      requiredOf full cA 4 (neighbours cA) 0x004240E7F0000100#64,
      requiredOf full cD 2 (neighbours cD) 0x004240E7F0000100#64,
      requiredOf full cD 1 (neighbours cD) 0x004240E7F0000100#64,
      requiredOf full cD 4 (neighbours cD) 0x004240E7F0000100#64,
      requiredOf full cF 2 (neighbours cF) 0x004240E7F0000100#64,
      requiredOf full cF 1 (neighbours cF) 0x004240E7F0000100#64,
      requiredOf full cF 4 (neighbours cF) 0x004240E7F0000100#64] =
    [[1, 3], [], [], [8, 15], [], [], [8, 14, 15], [], [14]] := by
  decide +kernel

/-! ### Vectors of the access check (section 5) -/

/-- A PE with given level and controls: EL, TTLB, TTLBIS, FGTEn, the HFGITR bit; NS = 1. -/
def controls (el : EL) (ttlb ttlbis fgten hfg : Bool) : Pe :=
  { peWith 0#64 with
    el := el
    scr := ⟨true, false, fgten⟩
    hcr := ⟨false, false, ttlb, ttlbis⟩
    hfgitr := ⟨hfg⟩ }

def absent : Params := { full with haveTlbiRange := false }
def noEl3 : Params := { full with haveEl3 := false }
def el2AArch32 : Params := { full with el2IsAArch32 := .fixed true }

/-- The access check of PE 0 alone. -/
def accessOf (c : Params) (pe : Pe) : Option FaultReason := access (alone c pe) 0 pe

/-- X1 to X13; X11 with EL2 absent and with EL2 in AArch32. -/
theorem test_access_vectors :
    [accessOf absent (controls .el0 false false false false),
      accessOf absent (controls .el1 true false false false),
      accessOf absent (controls .el3 false false false false),
      accessOf full (controls .el0 true true true true),
      accessOf full (controls .el1 true false false false),
      accessOf full (controls .el1 false true false false),
      accessOf noEl3 (controls .el1 false false false true),
      accessOf full (controls .el1 false false true true),
      accessOf full (controls .el1 false false false true),
      accessOf full (controls .el1 false false true false),
      accessOf noEl2 (controls .el1 true true true true),
      accessOf el2AArch32 (controls .el1 true true true true),
      accessOf full (controls .el2 true true true true),
      accessOf full (controls .el3 true true true true)] =
    [some .undefined, some .undefined, some .undefined, some .undefined,
      some (.systemAccessTrap .el2 0x18), some (.systemAccessTrap .el2 0x18),
      some (.systemAccessTrap .el2 0x18), some (.systemAccessTrap .el2 0x18), none, none, none,
      none, none, none] := by
  decide

/-! ### One step (section 6) -/

/-- What a test looks at after a step: `pc` and fault record of PE 0, the number of pending requests
of each agent, and the refusal mark. -/
def seen (o : Host.Outcome State Fault Refusal) :
    Option (Option (Word × Option FaultRecord) × List Nat × Option Refusal) :=
  match o with
  | .next s =>
    some ((s.pe? 0).map fun pe => (pe.pc, pe.fault), s.agents.map fun ag => ag.pending.length,
      s.refusal)
  | .fault _ => none
  | .refused _ => none

/-- Program 1: PE 0 and PE 1 in one domain, PE 2 outside. -/
def program1 : State :=
  system plain
    [agentOf (.pe (peWith 0x0001400000080000#64)) 0 [],
      agentOf (.pe (peWith 0#64)) 0 [], agentOf (.pe (peWith 0#64)) 1 []]

theorem test_program1_issue :
    seen (step (program1.loadProgram 0 0x80000#64 [0xD50882A0#32])) =
      some (some (0x80004#64, none), [1, 1, 0], none) := by
  decide +kernel

/-- Program 3: trapped at EL1 by `HCR_EL2.TTLB`. -/
theorem test_program3_trap :
    seen (step ((alone noEl3 (controls .el1 true false false false)).loadProgram 0 0x2000#64
      [0xD50882A3#32])) =
      some (some (0x2000#64, some ⟨.systemAccessTrap .el2 0x18, 0x2000#64, 0xD50882A3#32⟩), [0],
        none) := by
  decide +kernel

/-- R16: at EL0 too the instruction at `pc = 2^64 - 4` is refused, with no fault. -/
theorem test_last_word_is_refused :
    seen (exec (.tlbiRvale1is 0) (alone plain { peWith 0#64 with
      el := .el0
      pc := 0xFFFFFFFFFFFFFFFC#64 })) =
      some (some (0xFFFFFFFFFFFFFFFC#64, none), [0], some .noSuccessor) := by
  decide

/-- R30: an ASID of 8 bits is held zero-extended, so no entry has an upper bit. -/
theorem test_entry_asid_width :
    [TlbEntry.wf asid8 { e1 with asid := 0x0100#16 }, TlbEntry.wf asid8 { e1 with asid := 0x00FF#16 },
      TlbEntry.wf full { e1 with asid := 0x0100#16 }] = [false, true, true] := by
  decide

/-- R7: a word that is not the instruction sets the mark. -/
theorem test_unknown_word_is_refused :
    seen (step ((alone plain (peWith 0#64)).loadProgram 0 0x1000#64 [0xD503201F#32])) =
      some (some (0x1000#64, none), [0], some (.unknownWord 0xD503201F#32)) := by
  decide +kernel

/-- The table's word is what the first step after reset runs (its outcome is a next state). -/
theorem test_first_step_after_reset :
    (match step (State.reset.withFetchWord 32 0xD50882A0) with
      | .next _ => true
      | .fault _ => false
      | .refused _ => false) = true := by
  decide

/-! ### Witnesses -/

/-- PE 0 of `alone c pe` executes. -/
theorem alone_executes (c : Params) (pe : Pe) (h : pe.fault = none) :
    Executes (alone c pe) 0 pe := ⟨rfl, rfl, h⟩

theorem witness_EncodeAndDecodeAreInverse : (Instr.tlbiRvale1is 31).wellFormed = true := rfl

/-- The last register name there is (R66). -/
theorem witness_SpellingsAssembleToOneInstruction :
    30 ≤ 30 ∧ Asm.assemble (.tlbiRvale1is (some (.x 30))) = some (.tlbiRvale1is 30) := by decide

/-- A PE at the last word of the address space (R16). -/
def atTop : Pe := { cA with pc := 0xFFFFFFFFFFFFFFFC#64 }

/-- Each branch: refused at the last word, absent, EL0, trapped, performed. -/
theorem witness_AccessCheckDecidesTheOutcome :
    Executes (alone absent cA) 0 cA ∧
      Executes (alone full (controls .el0 true true true true)) 0
        (controls .el0 true true true true) ∧
      Executes (alone full (controls .el1 true true true true)) 0
        (controls .el1 true true true true) ∧
      Executes (alone full atTop) 0 atTop ∧ Executes (alone full cA) 0 cA :=
  ⟨alone_executes _ _ rfl, alone_executes _ _ rfl, alone_executes _ _ rfl, alone_executes _ _ rfl,
    alone_executes _ _ rfl⟩

theorem witness_CompletesWhereNothingRaises :
    Executes (alone full cA) 0 cA ∧ (alone full cA).params.haveTlbiRange = true ∧
      (cA.el = .el1 ∧ noTrap (alone full cA) 0 cA = true) ∧ cA.pc.toNat ≠ 2 ^ 64 - 4 :=
  ⟨alone_executes _ _ rfl, rfl, ⟨rfl, rfl⟩, by decide⟩

theorem witness_CompletesAtEl2AndEl3 :
    Executes (alone full (controls .el2 true true true true)) 0
        (controls .el2 true true true true) ∧
      Executes (alone full (controls .el3 true true true true)) 0
        (controls .el3 true true true true) ∧
      (controls .el3 true true true true).pc.toNat ≠ 2 ^ 64 - 4 :=
  ⟨alone_executes _ _ rfl, alone_executes _ _ rfl, by decide⟩

theorem witness_UndefinedWhereNotPresent :
    Executes (alone absent cA) 0 cA ∧ (alone absent cA).params.haveTlbiRange = false :=
  ⟨alone_executes _ _ rfl, rfl⟩

theorem witness_UndefinedAtEl0 :
    Executes (alone full (controls .el0 true true true true)) 0
        (controls .el0 true true true true) ∧
      (controls .el0 true true true true).el = .el0 :=
  ⟨alone_executes _ _ rfl, rfl⟩

/-- Each of the three conditions alone. -/
theorem witness_TrappedToEl2FromEl1 :
    ∀ pe ∈ [controls .el1 true false false false, controls .el1 false true false false,
        controls .el1 false false true true],
      Executes (alone full pe) 0 pe ∧ (alone full pe).params.haveTlbiRange = true ∧ pe.el = .el1 ∧
        el2Enabled (alone full pe).params pe = true ∧ el2UsingAArch32 (alone full pe) 0 = false ∧
        (pe.hcr.ttlb = true ∨ pe.hcr.ttlbis = true ∨
          (((alone full pe).params.haveEl3 = false ∨ pe.scr.fgten = true) ∧
            pe.hfgitr.tlbirvale1is = true)) ∧
        pe.pc.toNat ≠ 2 ^ 64 - 4 := by
  intro pe h
  simp only [List.mem_cons, List.not_mem_nil, or_false] at h
  rcases h with rfl | rfl | rfl <;>
    exact ⟨alone_executes _ _ rfl, rfl, rfl, rfl, rfl, by decide, by decide⟩

theorem witness_El2EnabledPredicate :
    (alone el2AArch32 cA).params.el2IsAArch32 = .fixed true := rfl

/-- Where TTLB traps, where EL2 is absent, and at EL0, EL2 and EL3. -/
theorem witness_TtlbActsOnlyAtEl1UnderEl2 :
    (Executes (alone full (controls .el1 true false false false)) 0
        (controls .el1 true false false false) ∧
      el2Enabled full (controls .el1 true false false false) = true ∧
      el2UsingAArch32 (alone full (controls .el1 true false false false)) 0 = false ∧
      full.haveTlbiRange = true) ∧
    ¬((controls .el1 true true true true).el = .el1 ∧
      el2Enabled noEl2 (controls .el1 true true true true) = true ∧
      el2UsingAArch32 (alone noEl2 (controls .el1 true true true true)) 0 = false) ∧
    (controls .el0 true true true true).el = .el0 ∧ (controls .el2 true true true true).el = .el2 ∧
    (controls .el3 true true true true).el = .el3 :=
  ⟨⟨alone_executes _ _ rfl, rfl, rfl, rfl⟩, by decide, rfl, rfl, rfl⟩

theorem witness_RaiseChangesOnlyTheFaultRecord : (alone full cA).pe? 0 = some cA := rfl

theorem witness_RaiseOrWholeIssue :
    ∃ u, exec (.tlbiRvale1is 0) (alone full cA) = .next u := ⟨_, rfl⟩

theorem witness_RaiseOrWholeIssue_at_top :
    ∃ u, exec (.tlbiRvale1is 0) (alone full atTop) = .next u := ⟨_, rfl⟩

/-- A PE with a fault recorded. -/
def faulted : Pe := { cA with fault := some ⟨.undefined, 0x80000#64, 0xD50882A0#32⟩ }

theorem witness_FaultedPeStaysAsItIs :
    (∃ u, step { alone full faulted with turn := .evict 0 e1 } = .next u) ∧
      ({ alone full faulted with turn := .evict 0 e1 } : State).pe? 0 = some faulted ∧
      faulted.fault = some ⟨.undefined, 0x80000#64, 0xD50882A0#32⟩ :=
  ⟨⟨_, rfl⟩, rfl, rfl⟩

theorem witness_FaultedPeHasNoStep :
    (alone full faulted).turn = .instruction 0 ∧ (alone full faulted).pe? 0 = some faulted ∧
      faulted.fault = some ⟨.undefined, 0x80000#64, 0xD50882A0#32⟩ := ⟨rfl, rfl, rfl⟩

/-- A PE whose program is the words given, at `0x80000`. -/
def loaded (words : List InstrWord) : Pe := cA.load 0x80000#64 words

/-- A PE that has exited: `pc` at the end of an empty program. -/
theorem witness_ExitedPeHasNoStep :
    Executes (alone full (loaded [])) 0 (loaded []) ∧
      (loaded []).program = some ⟨0x80000#64, 0⟩ ∧ (loaded []).pc.toNat % 4 = 0 ∧
      (loaded []).pc.toNat = Program.limit ⟨0x80000#64, 0⟩ :=
  ⟨alone_executes _ _ rfl, rfl, by decide, by decide⟩

theorem witness_ExitedPeHasNoStep_no_program :
    Executes (alone full cA) 0 cA ∧ cA.program = none := ⟨alone_executes _ _ rfl, rfl⟩

/-- The last register that is storage (R15). -/
theorem witness_Register31ReadsAsZero : (30#5).toNat < 31 ∧ ¬(31#5).toNat < 31 := by decide

/-- The greatest field with bit 36 zero. -/
theorem witness_BaseExtendsTheField : (0x0FFFFFFFFF#37).getLsbD 36 = false := by decide

/-- R78: `End` past `2^64` (V11 under `sign`), and an address from `Base` on. -/
theorem witness_RangeIsTheFormula :
    (2 ^ 64 - 1 : Nat) < 2 ^ 64 ∧ operandBase plain .g4K 0x0000401FFFFFFFFF#64 ≤ 2 ^ 64 - 1 ∧
      2 ^ 64 ≤ operandEnd plain .g4K 0x0000401FFFFFFFFF#64 := by
  decide

/-- A selector of the sample's operand vA in context cA. -/
def selectorA : Selector := selectorFor (alone full cA) 0 cA 0x004240E7F0000100#64 .g4K (.pe cA)

theorem witness_LevelConditionByTtl :
    selectorA.level = levelOf (effectiveTtl .g4K 0b11#2) := by decide

theorem witness_TargetSecurityFollowsNs :
    full.haveEl3 = true ∧ cF.scr.ns = false ∧ cA.scr.ns = true ∧ plain.haveEl3 = false := by decide

/-- The three cases of R80. -/
theorem witness_TargetRegimeAndVmid :
    selectorA.vmid = targetVmid full cA ∧ el2Enabled full cA = true ∧
      ¬(cA.hcr.e2h = true ∧ cA.hcr.tge = true) ∧ el2Enabled full cB = true ∧
      cB.hcr.e2h = true ∧ cB.hcr.tge = true ∧ el2Enabled noEl2 cA = false := by
  decide

/-- An entry at the very top of the address space. -/
theorem witness_RangeConditionIsAboutAddresses :
    TlbEntry.wf full { e1 with base := 2 ^ 64 - 0x1000 } = true ∧
      (2 ^ 64 - 1 : Nat) < 2 ^ 64 ∧ 2 ^ 64 - 1 < 2 ^ 64 + 0x1000 := by
  decide

theorem witness_RequiredIsTheConjunctionOfItsConditions :
    operandTg 0#64 = 0b00#2 ∧ granuleOf (operandTg 0x004240E7F0000100#64) = some .g4K ∧
      operandTg 0x0000400000000000#64 = 0b01#2 ∧ operandTg 0x0000800000000000#64 = 0b10#2 ∧
      operandTg 0x0000C00000000000#64 = 0b11#2 := by
  decide

theorem witness_NeverRequiredEntries :
    requires (requirement (alone full cA) 0 cA 0x00424087F0000100#64 0 (.pe cA))
      { e1 with level := 0 } = true := by
  decide

theorem witness_Res0BitsVoidNonGlobal :
    asidBitsInUse (alone asid8 cA) 0 = .bits8 ∧ (0x014240E7F0000100#64).extractLsb' 56 8 ≠ 0#8 ∧
      asid8.asidBitsImpl = .bits16 ∧ asid8.asidBitsInUse = .fixed .bits8 ∧
      ({ full with asidBitsImpl := .bits8 } : Params).asidBitsImpl = .bits8 ∧
      requires (requirement (alone asid8 cA) 0 cA 0x014240E7F0000100#64 0 (.pe cA))
        { e1 with global := true } = true := by
  decide

theorem witness_WorkedExampleRequiredSet :
    plain.haveEl2 = false ∧ plain.haveEl3 = false ∧ plain.secStateNoEl3 = .nonSecure ∧
      plain.asidBitsImpl = .bits16 ∧ plain.asidBitsInUse = .fixed .bits16 ∧
      plain.rangeMatch = .overlap ∧ plain.baseExt ≠ .free ∧ program1.sameDomain 0 1 = true := by
  decide

/-- The PE of program 1, and the system with completion within the step. -/
def peP1 : Pe := peWith 0x0001400000080000#64
def atOnce : State := { program1 with params := { plain with completion := .immediate } }

/-- Agents inside (1) and outside (2) the domain, under both completion models. -/
theorem witness_IssueAddsOneRequestPerTarget :
    program1.pe? 0 = some peP1 ∧ program1.agents[2]? = some (agentOf (.pe (peWith 0#64)) 1 []) ∧
      program1.sameDomain 0 2 = false ∧ program1.sameDomain 0 1 = true ∧
      program1.params.completion = .pending ∧ atOnce.params.completion = .immediate ∧
      atOnce.pe? 0 = some peP1 ∧ atOnce.sameDomain 0 1 = true := by
  refine ⟨rfl, rfl, ?_, ?_, rfl, rfl, rfl, ?_⟩ <;> decide

theorem witness_RequestReachesExactlyTheDomain :
    program1.wf = true ∧ program1.params.completion = .pending ∧ Executes program1 0 peP1 ∧
      access program1 0 peP1 = none ∧ peP1.pc.toNat ≠ 2 ^ 64 - 4 ∧
      ∃ u, exec (.tlbiRvale1is 0) program1 = .next u :=
  ⟨by decide +kernel, rfl, ⟨rfl, rfl, rfl⟩, by decide, by decide, ⟨_, rfl⟩⟩

/-- Register 31 (Reserved TG), and vD (UNPREDICTABLE). -/
theorem witness_ReservedOrUnpredictableStillCompletes :
    (alone full cA).wf = true ∧ Executes (alone full cA) 0 cA ∧
      access (alone full cA) 0 cA = none ∧ cA.pc.toNat ≠ 2 ^ 64 - 4 ∧
      operandTg (cA.readX 31) = 0b00#2 ∧
      granuleOf (operandTg ((peWith 0x004240C7F0000100#64).readX 0)) = some .g4K ∧
      unpredictableRange .g4K ((peWith 0x004240C7F0000100#64).readX 0) = true :=
  ⟨by decide +kernel, alone_executes _ _ rfl, by decide, by decide, by decide, by decide,
    by decide⟩

theorem witness_TwoExecutionsIssueTwoRequests :
    program1.params.completion = .pending ∧ program1.pe? 0 = some peP1 ∧
      program1.agents[1]? = some (agentOf (.pe (peWith 0#64)) 0 []) ∧
      program1.sameDomain 0 1 = true :=
  ⟨rfl, rfl, rfl, by decide⟩

theorem witness_InstructionFrame :
    (∃ u, exec (.tlbiRvale1is 0) program1 = .next u) ∧ program1.pe? 0 = some peP1 :=
  ⟨⟨_, rfl⟩, rfl⟩

theorem witness_OutsideTheDomainIsUntouched :
    Executes program1 0 peP1 ∧ (∃ u, exec (.tlbiRvale1is 0) program1 = .next u) ∧
      program1.sameDomain 0 2 = false :=
  ⟨⟨rfl, rfl, rfl⟩, ⟨_, rfl⟩, by decide⟩

/-- A request for operand vA in context cA, and an agent at which it pends with two entries. -/
def requestA : Request := ⟨0, 0, some selectorA⟩
def agentA : Agent := ⟨.pe cA, 0, [e1, { e1 with asid := 0x0043#16 }], [requestA]⟩
def waiting : State := ⟨full, [agentA], .perform 0 0 [], 0, 1, none⟩

theorem witness_PerformRemovesAnySetAboveTheRequired :
    waiting.wf = true ∧ waiting.agents[0]? = some agentA ∧ requestA ∈ agentA.pending ∧
      (∀ e ∈ agentA.tlb, requires requestA.required e = true → e ∈ [e1]) ∧
      ∀ e ∈ [e1], e ∈ agentA.tlb := by
  refine ⟨by decide +kernel, rfl, List.mem_singleton.2 rfl, ?_, by simp [agentA]⟩
  intro e h hr
  simp only [agentA, List.mem_cons, List.not_mem_nil, or_false] at h
  rcases h with rfl | rfl
  · exact List.mem_singleton.2 rfl
  · exact absurd hr (by decide)

theorem witness_PerformedRequestLeavesNoRequiredEntry :
    waiting.wf = true ∧ waiting.agents[0]? = some agentA ∧ requestA ∈ agentA.pending ∧
      waiting.turn = .perform 0 requestA.id [] ∧ ∃ u, step waiting = .next u :=
  ⟨by decide +kernel, rfl, List.mem_singleton.2 rfl, rfl, ⟨_, rfl⟩⟩

theorem witness_PerformsCommute : (0 : Nat) ≠ 1 ∨ (0 : Nat) ≠ 0 := by decide

theorem witness_LastPerformCompletesTheRequest :
    waiting.wf = true ∧ waiting.agents[0]? = some agentA ∧ requestA ∈ agentA.pending ∧
      ∀ (b : Nat) (other : Agent), b ≠ 0 → waiting.agents[b]? = some other →
        ∀ r' ∈ other.pending, r'.id ≠ requestA.id := by
  refine ⟨by decide +kernel, rfl, List.mem_singleton.2 rfl, fun b other hb h => ?_⟩
  rw [List.getElem?_eq_none (show waiting.agents.length ≤ b by show 1 ≤ b; omega)] at h
  cases h

theorem witness_OnlyFillAddsEntries :
    (∃ u ag', step waiting = .next u ∧ u.agents[0]? = some ag') ∧
      waiting.agents[0]? = some agentA :=
  ⟨⟨_, _, rfl, rfl⟩, rfl⟩

/-- A system whose `TLBFill` admits every entry. -/
def filling : State := { waiting with params := { full with tlbFill := .fixed true } }

theorem witness_EvictAndFillAtAnyTime :
    filling.agents[0]? = some agentA ∧ filling.params.tlbFill = .fixed true ∧
      fillAllowed filling 0 e1 = true ∧ fillAllowed waiting 0 e1 = false :=
  ⟨rfl, rfl, by decide, by decide⟩

theorem witness_PendingRequestIsFrozen :
    (∃ u, step waiting = .next u) ∧ waiting.agents[0]? = some agentA ∧
      requestA ∈ agentA.pending :=
  ⟨⟨_, rfl⟩, rfl, List.mem_singleton.2 rfl⟩

/-- One word of program text, read at its first and last byte. -/
theorem witness_StepRunsTheDecodedInstruction :
    Executes (alone full (loaded [0xD50882A5#32])) 0 (loaded [0xD50882A5#32]) ∧
      (loaded [0xD50882A5#32]).program = some ⟨0x80000#64, 1⟩ ∧
      Program.limit ⟨0x80000#64, 1⟩ ≤ 2 ^ 64 ∧ (0x80000#64).toNat % 4 = 0 ∧
      (0x80000#64).toNat < Program.limit ⟨0x80000#64, 1⟩ ∧
      (loaded [0xD50882A5#32]).text.read 0x80000 = some 0xA5#8 ∧
      (loaded [0xD50882A5#32]).text.read 0x80001 = some 0x82#8 ∧
      (loaded [0xD50882A5#32]).text.read 0x80002 = some 0x08#8 ∧
      (loaded [0xD50882A5#32]).text.read 0x80003 = some 0xD5#8 ∧
      decodeBytes [0xA5#8, 0x82#8, 0x08#8, 0xD5#8] = .ok (.tlbiRvale1is 5, []) :=
  ⟨alone_executes _ _ rfl, rfl, by decide, by decide, by decide, by decide, by decide, by decide,
    by decide, by decide⟩

/-- The four malformed launches: past the top, misaligned, outside, and a word not of R55. -/
theorem witness_RefusalSetsTheMark :
    Executes (alone full { cA with program := some ⟨0xFFFFFFFFFFFFFFFC#64, 2⟩ }) 0
        { cA with program := some ⟨0xFFFFFFFFFFFFFFFC#64, 2⟩ } ∧
      2 ^ 64 < Program.limit ⟨0xFFFFFFFFFFFFFFFC#64, 2⟩ ∧
      Program.limit ⟨0x80000#64, 1⟩ ≤ 2 ^ 64 ∧ (0x80002#64).toNat % 4 ≠ 0 ∧
      Program.limit ⟨0x80000#64, 1⟩ < (0x80008#64).toNat ∧ (0x80008#64).toNat % 4 = 0 ∧
      (0x7FFFC#64).toNat < (0x80000#64).toNat ∧
      (loaded [0xD503201F#32]).fetchWord = .word 0xD503201F#32 ∧
      0xD503201F#32 &&& 0xFFFFFFE0#32 ≠ 0xD50882A0#32 :=
  ⟨alone_executes _ _ rfl, by decide, by decide, by decide, by decide, by decide, by decide,
    by decide, by decide⟩

theorem witness_NoSuccessorIsRefused :
    Executes (alone full atTop) 0 atTop ∧ atTop.pc.toNat = 2 ^ 64 - 4 ∧ (alone full atTop).refusal = none :=
  ⟨alone_executes _ _ rfl, by decide, rfl⟩

/-- A PE whose program ends above `2^64`: its turn sets the mark. -/
def pastTop : State := alone full { cA with program := some ⟨0xFFFFFFFFFFFFFFFC#64, 2⟩ }

theorem witness_RefusedPeTakesNoFurtherStep :
    ∃ u, pastTop.turn = .instruction 0 ∧ pastTop.refusal = none ∧ step pastTop = .next u ∧
      u.refusal = some .programPastTop ∧ Reachable u u :=
  ⟨_, rfl, rfl, rfl, rfl, .start⟩

/-- The system after `n` turns of a PE without a program, which do nothing. -/
def idle : Nat → State
  | 0 => waiting
  | n + 1 => ({ idle n with turn := .instruction 0 } : State).pass

theorem idle_agents (n : Nat) : (idle n).agents = [agentA] := by
  induction n with
  | zero => rfl
  | succ n ih => exact ih

theorem witness_NoInterruptIsTaken : ∀ n, Move (idle n) (idle (n + 1)) := fun n =>
  ⟨.instruction 0, by
    simp [step, instructionStep, State.pe?, idle_agents, agentA, AgentKind.pe?, Pe.next,
      Pe.stopped, Pe.fetch, fetchedStep, passing, idle, cA, peWith]⟩

/-- The same with the mark already set. -/
theorem witness_NoSuccessorIsRefused_marked :
    Executes { alone full atTop with refusal := some .noSuccessor } 0 atTop ∧
      ({ alone full atTop with refusal := some .noSuccessor } : State).refusal =
        some .noSuccessor :=
  ⟨⟨rfl, rfl, rfl⟩, rfl⟩

theorem witness_RefusalMarkIsNeverCleared :
    (∃ u, step { waiting with refusal := some .noSuccessor } = .next u) ∧
      ({ waiting with refusal := some .noSuccessor } : State).refusal = some .noSuccessor :=
  ⟨⟨_, rfl⟩, rfl⟩

theorem witness_NoStepWritesRegistersOrLevel :
    (∃ u, step (program1.loadProgram 0 0x80000#64 [0xD50882A0#32]) = .next u) ∧
      ∃ pe, (program1.loadProgram 0 0x80000#64 [0xD50882A0#32]).pe? 0 = some pe :=
  ⟨⟨_, rfl⟩, ⟨_, rfl⟩⟩

theorem witness_StepKeepsTheSystemWellFormed :
    waiting.wf = true ∧ ∃ u, step waiting = .next u := ⟨by decide +kernel, ⟨_, rfl⟩⟩

theorem witness_StepKeepsRequestsInTheirDomain :
    PendingInDomain waiting ∧ ∃ u, step waiting = .next u := by
  refine ⟨fun a ag r ha hr => ?_, ⟨_, rfl⟩⟩
  match a with
  | 0 =>
    cases ha
    cases List.mem_singleton.1 hr
    decide
  | b + 1 => cases ha

/-- Program 1 loaded, and the same PE faulted in it. -/
theorem witness_LaunchedProgramsAreNeverRefused :
    (program1.loadProgram 0 0x80000#64 [0xD50882A0#32, 0xD50882BF#32]).launched = true ∧
      (program1.loadProgram 0 0x80000#64 [0xD50882A0#32, 0xD50882BF#32]).refusal = none :=
  ⟨by decide +kernel, rfl⟩

theorem witness_FinalStatesStayFinal :
    (alone full (loaded [])).launched = true ∧ (alone full (loaded [])).final = true := by
  decide

/-- Agent 0 is a PE at reset, whatever the free values are (log 10). -/
theorem witness_ResetHasNothingPendingAndNoFault : ∃ pe, State.reset.pe? 0 = some pe := ⟨_, rfl⟩

theorem witness_PlacedInstructionIsRunNext :
    (alone full cA).turn = .instruction 0 ∧ (alone full cA).pe? 0 = some cA ∧
      cA.pc.toNat % 4 = 0 := ⟨rfl, rfl, by decide⟩

end Sys2Proof.Tests
end

section
/-! PROOFS. The scope of the model (`00_scope.md`): when EL2 is enabled, which entries 8-bit ASIDs
leave required, and the launches the step refuses. -/

namespace Sys2Proof.Machine

/-! ### EL2 (R27) -/

/-- `EL2Enabled()` as a proposition (R27, log 24). -/
theorem el2Enabled_iff (c : Params) (pe : Pe) :
    el2Enabled c pe = true ↔
      c.haveEl2 = true ∧ (c.haveEl3 = false ∨ pe.scr.ns = true ∨ pe.scr.eel2 = true) := by
  simp [el2Enabled, or_assoc]

/-- P4, where it is one value for the system. -/
theorem el2UsingAArch32_of_fixed {s : State} {b : Bool} (h : s.params.el2IsAArch32 = .fixed b)
    (p : Nat) : el2UsingAArch32 s p = b := by
  simp [el2UsingAArch32, h]

/-- Settles O12: the conjunctions and disjunctions of R27's predicate, and P4 read off. -/
theorem el2EnabledPredicate : Obligations.El2EnabledPredicate :=
  fun s p pe => ⟨el2Enabled_iff s.params pe, fun _ hb => el2UsingAArch32_of_fixed hb p⟩

/-! ### ASIDs in use (R64, R82) -/

/-- Where the implementation supports 8 bits, 8 are in use (log 18). -/
theorem asidBitsInUse_of_bits8 {s : State} (h : s.params.asidBitsImpl = .bits8) (p : Nat) :
    asidBitsInUse s p = .bits8 := by
  simp [asidBitsInUse, Params.asidBits, h]

/-- Where the implementation supports 16 bits and P6 is one value, that many are in use. -/
theorem asidBitsInUse_of_fixed {s : State} {w : TagWidth} (himpl : s.params.asidBitsImpl = .bits16)
    (hw : s.params.asidBitsInUse = .fixed w) (p : Nat) : asidBitsInUse s p = w := by
  simp [asidBitsInUse, Params.asidBits, himpl, hw]

/-- R64: with 8-bit ASIDs in use, an operand whose bits 63:56 are not 0 names no ASID. -/
theorem asidOk_eq_false {s : State} {p : Nat} {v : Word} (h8 : asidBitsInUse s p = .bits8)
    (hv : v.extractLsb' 56 8 ≠ 0#8) : asidOk s p v = false := by
  simp [asidOk, operandUpperAsid, h8, hv]

/-- A selected entry meets `ACond` (R82, R83). -/
theorem Selector.asidCond_of_selects {q : Selector} {e : TlbEntry} (h : q.selects e = true) :
    q.asidCond e = true := by
  simp only [Selector.selects, Bool.and_eq_true] at h
  tauto

/-- A selector without `AsidOK` selects global entries alone (R82). -/
theorem Selector.global_of_selects {q : Selector} {e : TlbEntry} (hok : q.asidOk = false)
    (h : q.selects e = true) : e.global = true := by
  simpa [Selector.asidCond, hok] using Selector.asidCond_of_selects h

/-- A required entry is selected, for the granule the operand names (R85, R89). -/
theorem selects_of_requires {s : State} {p : Nat} {pe : Pe} {v : Word} {a : Nat} {kind : AgentKind}
    {e : TlbEntry} (h : requires (requirement s p pe v a kind) e = true) :
    ∃ g, granuleOf (operandTg v) = some g ∧ (selectorFor s p pe v g kind).selects e = true := by
  rcases hg : granuleOf (operandTg v) with _ | g
  · rw [requirement_reserved hg] at h
    cases h
  · exact ⟨g, rfl, ((requires_requirement_iff hg s p pe a kind e).1 h).2⟩

/-- Settles O30: the frozen selector carries `AsidOK`, which is false here, so of `ACond` only the
global half is left. -/
theorem res0BitsVoidNonGlobal : Obligations.Res0BitsVoidNonGlobal := by
  intro s p pe v a kind e
  refine ⟨fun h => asidBitsInUse_of_bits8 h p, fun w himpl hw => asidBitsInUse_of_fixed himpl hw p,
    fun h8 hv hreq => ?_⟩
  obtain ⟨g, -, hsel⟩ := selects_of_requires hreq
  exact Selector.global_of_selects (asidOk_eq_false h8 hv) hsel

/-! ### Fetching, branch by branch (R125, R126; the order of the reasons is log 28) -/

section fetch
variable {pe : Pe} {c : Program}

theorem fetch_pastTop (hc : pe.program = some c) (htop : 2 ^ 64 < c.limit) :
    pe.fetch = .refuse .programPastTop := by
  simp only [Pe.fetch, hc, if_pos htop]

theorem fetch_misaligned (hc : pe.program = some c) (htop : c.limit ≤ 2 ^ 64)
    (hpc : pe.pc.toNat % 4 ≠ 0) : pe.fetch = .refuse (.misalignedPc pe.pc) := by
  simp only [Pe.fetch, hc, if_neg htop.not_gt, if_pos hpc]

theorem fetch_outside (hc : pe.program = some c) (htop : c.limit ≤ 2 ^ 64)
    (hpc : pe.pc.toNat % 4 = 0) (hout : pe.pc.toNat < c.base.toNat ∨ c.limit < pe.pc.toNat) :
    pe.fetch = .refuse (.pcOutsideProgram pe.pc) := by
  simp only [Pe.fetch, hc, if_neg htop.not_gt, if_neg (not_not_intro hpc), if_pos hout]

/-- Inside the program, before its end, the word at `pc` is fetched. -/
theorem fetch_inside (hc : pe.program = some c) (htop : c.limit ≤ 2 ^ 64)
    (hpc : pe.pc.toNat % 4 = 0) (hlo : c.base.toNat ≤ pe.pc.toNat) (hhi : pe.pc.toNat < c.limit) :
    pe.fetch = pe.fetchWord := by
  have hin : ¬(pe.pc.toNat < c.base.toNat ∨ c.limit < pe.pc.toNat) := by omega
  simp only [Pe.fetch, hc, if_neg htop.not_gt, if_neg (not_not_intro hpc), if_neg hin,
    if_neg hhi.ne]

end fetch

/-! ### The refusal mark (R126) -/

/-- A word that does not match the pattern of R55 is refused by name (R7, R68). -/
theorem decodedStep_unmatched {w : InstrWord} (h : w &&& patternMask ≠ patternMatch) :
    decodedStep w = .refuse (.unknownWord w) := by
  simp only [decodedStep, decode, if_neg h]

/-- What an unfaulted PE fetches is its instruction step. -/
theorem next_of_executes {s : State} {p : Nat} {pe : Pe} (h : Executes s p pe) :
    pe.next = fetchedStep pe.fetch := by
  simp [Pe.next, Pe.stopped, h.noFault]

/-- Where no mark is set, a refused fetch sets it and passes the turn on, and does nothing else. -/
theorem step_of_fetch_refused {s : State} {p : Nat} {pe : Pe} {r : Refusal} (h : Executes s p pe)
    (hmark : s.refusal = none) (hr : fetchedStep pe.fetch = .refuse r) :
    step s = .next ({ s with refusal := some r } : State).pass := by
  have hnext : pe.next = .refuse r := (next_of_executes h).trans hr
  simp [step, h.turn, instructionStep, h.here, hnext, State.refuse, hmark, passing]

/-- Settles O47: each malformed launch takes its own branch of the fetch, which is refused. -/
theorem refusalSetsTheMark : Obligations.RefusalSetsTheMark := by
  intro s p pe c hexec hmark hc
  have marks : ∀ r, fetchedStep pe.fetch = .refuse r →
      step s = .next ({ s with refusal := some r } : State).pass :=
    fun _ => step_of_fetch_refused hexec hmark
  refine ⟨fun htop => marks _ ?_, fun htop hpc => marks _ ?_, fun htop hpc hout => marks _ ?_,
    fun w htop hpc hlo hhi hw hne => marks _ ?_⟩
  · rw [fetch_pastTop hc htop]; rfl
  · rw [fetch_misaligned hc htop hpc]; rfl
  · rw [fetch_outside hc htop hpc hout]; rfl
  · rw [fetch_inside hc htop hpc hlo hhi, hw]
    exact decodedStep_unmatched hne

end Sys2Proof.Machine
end

section
/-! PROOFS. The state (`10_state.md`): what one step does to an agent's TLB and pending requests, and
the invariants of the system that follow. -/

namespace Sys2Proof.Machine

/-! ### One agent's sets after a step (R29, R32, R51, R90, R91) -/

/-- What a step does to the TLB and the pending requests of agent `a`, and to the counter of
requests: nothing, its part of an issue, or its own perform, evict or fill. -/
inductive SetsChange (s u : State) (a : Nat) (ag ag' : Agent) : Prop where
  | same (tlb : ag'.tlb = ag.tlb) (pending : ag'.pending = ag.pending)
      (count : u.nextRequest = s.nextRequest)
  | issue (p : Nat) (pe : Pe) (v : Word) (tlb : ag'.tlb = (issueAt s p pe v a ag).tlb)
      (pending : ag'.pending = (issueAt s p pe v a ag).pending)
      (count : u.nextRequest = s.nextRequest + 1)
  | perform (r : Request) (also : List TlbEntry) (turn : s.turn = .perform a r.id also)
      (tlb : ag'.tlb = ag.tlb.remove r.required also) (pending : ag'.pending = ag.pending.erase r)
      (count : u.nextRequest = s.nextRequest)
  | evict (e : TlbEntry) (tlb : ag'.tlb = ag.tlb.without e) (pending : ag'.pending = ag.pending)
      (count : u.nextRequest = s.nextRequest)
  | fill (e : TlbEntry) (turn : s.turn = .fill a e) (allowed : fillAllowed s a e = true)
      (tlb : ag'.tlb = ag.tlb.add e) (pending : ag'.pending = ag.pending)
      (count : u.nextRequest = s.nextRequest)

/-- A perform turn finds no request of its number, or performs the one it finds (R91). -/
theorem performAt_cases (id : Nat) (also : List TlbEntry) (ag : Agent) :
    performAt id also ag = ag ∨
      ∃ r ∈ ag.pending, r.id = id ∧ performAt id also ag = ag.perform r also := by
  unfold performAt
  split
  · next r hr => exact .inr ⟨r, List.mem_of_find?_eq_some hr, by simpa using List.find?_some hr, rfl⟩
  · exact .inl rfl

/-- Every way one step can change one agent. -/
theorem step_agent {s u : State} (h : step s = .next u) {a : Nat} {ag : Agent}
    (ha : s.agents[a]? = some ag) :
    ∃ ag', u.agents[a]? = some ag' ∧ AgentChange s a ag ag' ∧ SetsChange s u a ag ag' := by
  obtain ⟨-, f, hf, -, hchange⟩ := step_changes h
  have hu : u.agents[a]? = some (f a ag) := by rw [hf, ha]; rfl
  refine ⟨f a ag, hu, hchange a ag ha, ?_⟩
  generalize f a ag = ag' at hu
  obtain ⟨u₀, rfl, hc⟩ := step_next_cases h
  rw [pass_agents] at hu
  rcases hc with ⟨p, -, rfl⟩ | ⟨p, r, -, -, rfl⟩ | ⟨p, pe, reason, t, -, -, -, -, rfl⟩ |
    ⟨p, pe, t, -, -, -, -, rfl⟩ | ⟨b, id, also, ht, rfl⟩ | ⟨b, e, -, rfl⟩ | ⟨b, e, ht, rfl⟩
  case inl | inr.inl =>
    cases ha.symm.trans hu
    exact .same rfl rfl rfl
  case inr.inr.inl =>
    rw [raise_lookup, ha] at hu
    cases hu
    exact .same (by split <;> rfl) (by split <;> rfl) rfl
  case inr.inr.inr.inl =>
    rw [issue_lookup, ha] at hu
    cases hu
    exact .issue p pe _ (by split <;> rfl) (by split <;> rfl) rfl
  case inr.inr.inr.inr.inl =>
    rw [perform_lookup, ha] at hu
    cases hu
    split
    · next hb =>
      subst hb
      rcases performAt_cases id also ag with hp | ⟨r, -, rfl, hp⟩ <;> rw [hp]
      · exact .same rfl rfl (by simp)
      · exact .perform r also ht rfl rfl (by simp)
    · exact .same rfl rfl (by simp)
  case inr.inr.inr.inr.inr.inl =>
    rw [evict_lookup, ha] at hu
    cases hu
    split
    · exact .evict e rfl rfl rfl
    · exact .same rfl rfl rfl
  case inr.inr.inr.inr.inr.inr =>
    rw [fill_lookup, ha] at hu
    cases hu
    split
    · next hb =>
      obtain ⟨hallowed, rfl⟩ := hb
      exact .fill e ht hallowed rfl rfl (by simp)
    · exact .same rfl rfl (by simp)

/-- A step adds no agent. -/
theorem step_agent_before {s u : State} (h : step s = .next u) {a : Nat} {ag' : Agent}
    (hu : u.agents[a]? = some ag') : ∃ ag, s.agents[a]? = some ag := by
  obtain ⟨-, f, hf, -, -⟩ := step_changes h
  rw [hf] at hu
  obtain ⟨ag, ha, -⟩ := Option.map_eq_some_iff.1 hu
  exact ⟨ag, ha⟩

/-- What an issue can do to an agent: nothing, one request more where requests pend, or that request
performed at once (R90). -/
theorem issueAt_cases (s : State) (p : Nat) (pe : Pe) (v : Word) (a : Nat) (ag : Agent) :
    issueAt s p pe v a ag = ag ∨
      (s.params.completion = .pending ∧ issueAt s p pe v a ag =
        { ag with pending := ag.pending ++ [requestFor s p pe v a ag.kind] }) ∨
      ∃ q also, issueAt s p pe v a ag = { ag with tlb := ag.tlb.remove q also } := by
  unfold issueAt deliver
  split
  · split
    · exact .inr (.inl ⟨‹_›, rfl⟩)
    · exact .inr (.inr ⟨_, _, rfl⟩)
  · exact .inl rfl

/-- What an issue leaves in a TLB was there before: it adds no entry (R90, R91). -/
theorem mem_issueAt_tlb {s : State} {p : Nat} {pe : Pe} {v : Word} {a : Nat} {ag : Agent}
    {e : TlbEntry} (h : e ∈ (issueAt s p pe v a ag).tlb) : e ∈ ag.tlb := by
  rcases issueAt_cases s p pe v a ag with hi | ⟨-, hi⟩ | ⟨q, also, hi⟩ <;> rw [hi] at h
  · exact h
  · exact h
  · exact ((Tlb.mem_remove _ _ _ _).1 h).1

/-- Settles O43: of the changes a step makes to a TLB, only a fill adds. -/
theorem onlyFillAddsEntries : Obligations.OnlyFillAddsEntries := by
  intro s u a ag ag' hstep ha hu e he
  obtain ⟨ag₁, hu₁, -, hsets⟩ := step_agent hstep ha
  cases hu.symm.trans hu₁
  cases hsets with
  | same htlb => exact .inl (htlb ▸ he)
  | issue p pe v htlb => exact .inl (mem_issueAt_tlb (htlb ▸ he))
  | perform r also _ htlb => exact .inl ((Tlb.mem_remove _ _ _ _).1 (htlb ▸ he)).1
  | evict x htlb => exact .inl ((Tlb.mem_without _ _ _).1 (htlb ▸ he)).1
  | fill x hturn _ htlb =>
    rcases (Tlb.mem_add _ _ _).1 (htlb ▸ he) with rfl | he
    · exact .inr hturn
    · exact .inl he

/-- Settles O45: of the changes a step makes to a `Pending` set, only a perform takes a request out,
and it is the one of its turn. -/
theorem pendingRequestIsFrozen : Obligations.PendingRequestIsFrozen := by
  intro s u a ag r hstep ha hr
  obtain ⟨ag', hu, -, hsets⟩ := step_agent hstep ha
  cases hsets with
  | same _ hpending | evict _ _ hpending | fill _ _ _ _ hpending =>
    exact .inl ⟨ag', hu, hpending ▸ hr⟩
  | issue p pe v _ hpending =>
    exact .inl ⟨ag', hu, hpending ▸ mem_issueAt_pending_of_mem hr s p pe v a⟩
  | perform r' also hturn _ hpending =>
    by_cases hrr : r = r'
    · exact .inr ⟨also, hrr ▸ hturn⟩
    · exact .inl ⟨ag', hu, hpending ▸ (List.mem_erase_of_ne hrr).2 hr⟩

/-! ### The invariant (R26, R29, R30, R32, R109) -/

/-- A PE stays well formed through any change a step makes to it: text, Exception level and VMID
stay. -/
theorem AgentChange.pe_wf {s : State} {a : Nat} {ag ag' : Agent} (h : AgentChange s a ag ag')
    {c : Params} (hwf : ∀ core, ag.kind.pe? = some core → core.wf c = true) :
    ∀ core, ag'.kind.pe? = some core → core.wf c = true := by
  rcases h.pe with hk | ⟨pe, r, hk, -, -, hk'⟩ | ⟨pe, t, hk, -, -, -, -, hk'⟩
  · rwa [hk]
  all_goals
    intro core hcore
    rw [hk'] at hcore
    cases hcore
    exact hwf pe (by rw [hk]; rfl)

/-- An issue leaves a TLB well formed (R29, R91). -/
theorem issueAt_tlb_wf {c : Params} {ag : Agent} (h : ag.tlb.wf c = true) (s : State) (p : Nat)
    (pe : Pe) (v : Word) (a : Nat) : (issueAt s p pe v a ag).tlb.wf c = true := by
  rcases issueAt_cases s p pe v a ag with hi | ⟨-, hi⟩ | ⟨q, also, hi⟩ <;> rw [hi]
  · exact h
  · exact h
  · exact Tlb.wf_remove h q also

/-- The pending requests of an agent are distinct, issued and well formed, and none pends under
`immediate` (R32). -/
def PendingWf (c : Params) (issued : Nat) (l : List Request) : Prop :=
  l.Pairwise (fun r r' => r.id ≠ r'.id) ∧ (∀ r ∈ l, r.id < issued ∧ r.wf = true) ∧
    (c.completion = .pending ∨ l = [])

/-- The invariant of one agent, by the component a step can change. -/
theorem agent_wf_iff_parts (c : Params) (n : Nat) (ag : Agent) :
    ag.wf c n = true ↔ ag.tlb.wf c = true ∧ PendingWf c n ag.pending ∧
      ∀ core, ag.kind.pe? = some core → core.wf c = true := by
  simp only [agent_wf_iff, PendingWf, and_assoc]

theorem PendingWf.sublist {c : Params} {n : Nat} {l l' : List Request} (h : PendingWf c n l)
    (hsub : l'.Sublist l) : PendingWf c n l' := by
  obtain ⟨hdistinct, hissued, hcompletion⟩ := h
  refine ⟨hdistinct.sublist hsub, fun r hr => hissued r (hsub.subset hr), hcompletion.imp_right ?_⟩
  rintro rfl
  exact List.sublist_nil.1 hsub

/-- An issued number stays issued. -/
theorem PendingWf.succ {c : Params} {n : Nat} {l : List Request} (h : PendingWf c n l) :
    PendingWf c (n + 1) l :=
  let ⟨hdistinct, hissued, hcompletion⟩ := h
  ⟨hdistinct, fun r hr => (hissued r hr).imp_left Nat.lt_succ_of_lt, hcompletion⟩

/-- Where requests pend, one more may, with the next number. -/
theorem PendingWf.append {c : Params} {n : Nat} {l : List Request} (h : PendingWf c n l)
    (hc : c.completion = .pending) {r : Request} (hid : r.id = n) (hr : r.wf = true) :
    PendingWf c (n + 1) (l ++ [r]) := by
  obtain ⟨hdistinct, hissued, -⟩ := h
  refine ⟨List.pairwise_append.2 ⟨hdistinct, List.pairwise_singleton _ _, fun x hx y hy => ?_⟩,
    fun x hx => ?_, .inl hc⟩
  · cases List.mem_singleton.1 hy
    exact ((hissued x hx).1.trans_eq hid.symm).ne
  · rcases List.mem_append.1 hx with hx | hx
    · exact ⟨(hissued x hx).1.trans n.lt_succ_self, (hissued x hx).2⟩
    · cases List.mem_singleton.1 hx
      exact ⟨hid ▸ n.lt_succ_self, hr⟩

/-- An issue leaves the pending requests well formed: the new one has the next number (R90). -/
theorem issueAt_pending_wf {s : State} {ag : Agent}
    (h : PendingWf s.params s.nextRequest ag.pending) (p : Nat) (pe : Pe) (v : Word) (a : Nat) :
    PendingWf s.params (s.nextRequest + 1) (issueAt s p pe v a ag).pending := by
  rcases issueAt_cases s p pe v a ag with hi | ⟨hc, hi⟩ | ⟨q, also, hi⟩ <;> rw [hi]
  · exact h.succ
  · exact h.append hc rfl (requestFor_wf s p pe v a ag.kind)
  · exact h.succ

/-- A fill adds an entry record only (R30, log 27). -/
theorem wf_of_fillAllowed {s : State} {a : Nat} {e : TlbEntry} (h : fillAllowed s a e = true) :
    e.wf s.params = true :=
  (Bool.and_eq_true_iff.1 h).1

/-- The sets of an agent stay well formed through any change a step makes to them. -/
theorem SetsChange.wf {s u : State} {a : Nat} {ag ag' : Agent} (h : SetsChange s u a ag ag')
    (htlb : ag.tlb.wf s.params = true) (hpend : PendingWf s.params s.nextRequest ag.pending) :
    ag'.tlb.wf s.params = true ∧ PendingWf s.params u.nextRequest ag'.pending := by
  cases h with
  | same tlb pending count =>
    rw [tlb, pending, count]
    exact ⟨htlb, hpend⟩
  | issue p pe v tlb pending count =>
    rw [tlb, pending, count]
    exact ⟨issueAt_tlb_wf htlb s p pe v a, issueAt_pending_wf hpend p pe v a⟩
  | perform r also _ tlb pending count =>
    rw [tlb, pending, count]
    exact ⟨Tlb.wf_remove htlb _ _, hpend.sublist List.erase_sublist⟩
  | evict e tlb pending count =>
    rw [tlb, pending, count]
    exact ⟨Tlb.wf_without htlb e, hpend⟩
  | fill e _ allowed tlb pending count =>
    rw [tlb, pending, count]
    exact ⟨Tlb.wf_add htlb (wf_of_fillAllowed allowed), hpend⟩

/-- Settles O53, agent by agent: a step changes its sets as `SetsChange` says and its PE as
`AgentChange` says, and each of these keeps its part of the invariant. -/
theorem stepKeepsTheSystemWellFormed : Obligations.StepKeepsTheSystemWellFormed := by
  intro s u hwf hstep
  refine wf_of_lookup fun a ag' hu => ?_
  obtain ⟨ag, ha⟩ := step_agent_before hstep hu
  obtain ⟨ag₁, hu₁, hchange, hsets⟩ := step_agent hstep ha
  cases hu.symm.trans hu₁
  obtain ⟨htlb, hpend, hpe⟩ := (agent_wf_iff_parts _ _ _).1 (agent_wf_of_lookup hwf ha)
  obtain ⟨htlb', hpend'⟩ := hsets.wf htlb hpend
  rw [(step_changes hstep).1]
  exact (agent_wf_iff_parts _ _ _).2 ⟨htlb', hpend', hchange.pe_wf hpe⟩

/-! ### After reset (R34, R115, R116; logs 7 to 11) -/

/-- Every agent after reset is a reset agent. -/
theorem eq_reset_of_mem_agentsAtReset {c : Params} {a : Nat} {l : List AgentDecl} {ag : Agent}
    (h : ag ∈ agentsAtReset c a l) : ∃ b d, ag = Agent.reset c b d := by
  induction l generalizing a with
  | nil => cases h
  | cons d l ih =>
    rcases List.mem_cons.1 h with rfl | h
    · exact ⟨a, d, rfl⟩
    · exact ih h

theorem eq_reset_of_mem_reset {ag : Agent} (h : ag ∈ State.reset.agents) :
    ∃ a d, ag = Agent.reset paramsAtReset a d :=
  eq_reset_of_mem_agentsAtReset h

@[simp] theorem agent_reset_pending (c : Params) (a : Nat) (d : AgentDecl) :
    (Agent.reset c a d).pending = [] := rfl

/-- The PE of a reset agent is a reset PE. -/
theorem eq_reset_of_agent_reset_pe? {c : Params} {a : Nat} {d : AgentDecl} {pe : Pe}
    (h : (Agent.reset c a d).kind.pe? = some pe) : pe = Pe.reset c := by
  unfold Agent.reset at h
  rcases d with ⟨_ | _, _⟩ <;> cases h
  rfl

/-- The highest implemented Exception level is implemented (log 8). -/
theorem implements_highestEl (c : Params) : c.implements c.highestEl = true := by
  unfold Params.highestEl
  split
  · assumption
  · split
    · assumption
    · rfl

theorem pe_reset_wf (c : Params) : (Pe.reset c).wf c = true := by
  have hvmid : c.vmidBits.fits 0#16 = true := by
    cases c.vmidBits <;> rfl
  simp [Pe.wf, Pe.reset, implements_highestEl, hvmid, Memory.wf]

theorem agent_reset_wf (c : Params) (a n : Nat) (d : AgentDecl) :
    (Agent.reset c a d).wf c n = true := by
  refine (agent_wf_iff _ _ _).2 ⟨Tlb.wf_ofList c _, by simp, by simp, by simp, fun core h => ?_⟩
  rw [eq_reset_of_agent_reset_pe? h]
  exact pe_reset_wf c

/-- Settles O54: every agent after reset is a reset agent, and each of these is well formed. -/
theorem resetIsWellFormed : Obligations.ResetIsWellFormed := by
  refine wf_of_lookup fun a ag ha => ?_
  obtain ⟨b, d, rfl⟩ := eq_reset_of_mem_reset (List.mem_of_getElem? ha)
  exact agent_reset_wf _ _ _ _

theorem agent_reset_fault (c : Params) (a : Nat) (d : AgentDecl) :
    (Agent.reset c a d).fault = none := by
  rcases d with ⟨_ | _, _⟩ <;> rfl

/-- Settles O58: every agent after reset is a reset agent. -/
theorem resetHasNothingPendingAndNoFault : Obligations.ResetHasNothingPendingAndNoFault := by
  refine ⟨List.all_eq_true.2 fun ag hag => ?_, List.all_eq_true.2 fun ag hag => ?_, rfl,
    fun p pe hpe => ?_⟩
  · obtain ⟨a, d, rfl⟩ := eq_reset_of_mem_reset hag
    rfl
  · obtain ⟨a, d, rfl⟩ := eq_reset_of_mem_reset hag
    rw [agent_reset_fault]
    rfl
  · obtain ⟨ag, ha, hk⟩ := pe?_eq_some.1 hpe
    obtain ⟨a, d, rfl⟩ := eq_reset_of_mem_reset (List.mem_of_getElem? ha)
    rw [eq_reset_of_agent_reset_pe? (by rw [hk]; rfl : _ = some pe)]
    rfl

/-- A general register number below 31 names that register (R14, R56). -/
theorem readX_of_lt (pe : Pe) {t : BitVec 5} (h : t.toNat < 31) : pe.readX t = pe.x[t.toNat] :=
  dif_pos h

/-- Register number 31 reads as zero (R15, log 24). -/
@[simp] theorem readX_31 (pe : Pe) : pe.readX 31 = 0#64 := rfl

theorem readX_reset (c : Params) (t : BitVec 5) : (Pe.reset c).readX t = 0#64 := by
  unfold Pe.readX
  split
  · exact Vector.getElem_replicate _
  · rfl

/-- Settles O59: agent 0 is the reset PE. -/
theorem resetRegistersAsTheLogNames : Obligations.ResetRegistersAsTheLogNames :=
  ⟨Pe.reset paramsAtReset, rfl, readX_reset _, rfl, rfl, rfl, rfl, rfl, rfl⟩

/-- Settles O19: the zero operand has the Reserved TG. -/
theorem register31ReadsAsZero : Obligations.Register31ReadsAsZero := by
  refine fun s p pe a kind => ⟨fun t h => readX_of_lt pe h, readX_31 pe, ?_⟩
  have hreserved : granuleOf (operandTg (pe.readX 31)) = none := by
    rw [readX_31]
    decide
  exact requirement_reserved hreserved s p pe a kind

/-! ### What no step writes (R50, R92, R111) -/

/-- A step leaves a PE as it is but for its fault record and a `pc` that may have advanced. -/
theorem AgentChange.pe_frame {s : State} {a : Nat} {ag ag' : Agent} (h : AgentChange s a ag ag')
    {pe : Pe} (hk : ag.kind = .pe pe) :
    ∃ pe', ag'.kind = .pe pe' ∧ pe' = { pe with pc := pe'.pc, fault := pe'.fault } ∧
      (pe'.pc = pe.pc ∨ pe'.pc = pe.pc + 4#64) := by
  rcases h.pe with hk' | ⟨core, r, hcore, -, -, hk'⟩ | ⟨core, t, hcore, -, -, -, -, hk'⟩
  · exact ⟨pe, hk'.trans hk, rfl, .inl rfl⟩
  · cases hk.symm.trans hcore
    exact ⟨_, hk', rfl, .inl rfl⟩
  · cases hk.symm.trans hcore
    exact ⟨_, hk', rfl, .inr rfl⟩

/-- Settles O52, from what a step does to each agent. -/
theorem noStepWritesRegistersOrLevel : Obligations.NoStepWritesRegistersOrLevel := by
  intro s u hstep
  obtain ⟨hparams, f, hf, hdomain, -⟩ := step_changes hstep
  refine ⟨hparams, fun a => ?_, fun p pe hpe => ?_⟩
  · rw [hf, Option.map_map]
    exact congrArg (Option.map · _) (funext fun ag => hdomain a ag)
  · obtain ⟨ag, ha, hk⟩ := pe?_eq_some.1 hpe
    obtain ⟨ag', hu, hchange, -⟩ := step_agent hstep ha
    obtain ⟨pe', hk', hframe, hpc⟩ := hchange.pe_frame hk
    exact ⟨pe', pe?_eq_some.2 ⟨ag', hu, hk'⟩, hframe, hpc⟩

end Sys2Proof.Machine
end

section
/-! PROOFS. The instruction (`40_tlbi_rvale1is.md` R69 to R92): what it comes to by the access check,
what it leaves unchanged, whom it reaches, and its spellings. -/

namespace Sys2Proof.Machine

/-! ### The access check (R16, R70 to R73, R101) -/

theorem eq_lastPc_iff {pc : Word} : pc = lastPc ↔ pc.toNat = 2 ^ 64 - 4 :=
  BitVec.toNat_inj.symm

/-- None of the three trap conditions of R72 holds, in the literal fields. -/
theorem noTrap_eq_false_iff (s : State) (p : Nat) (pe : Pe) :
    noTrap s p pe = false ↔ el2Enabled s.params pe = true ∧ el2UsingAArch32 s p = false ∧
      (pe.hcr.ttlb = true ∨ pe.hcr.ttlbis = true ∨
        ((s.params.haveEl3 = false ∨ pe.scr.fgten = true) ∧ pe.hfgitr.tlbirvale1is = true)) := by
  have hg : el2CanTrap s p pe = true ↔ el2Enabled s.params pe = true ∧
      el2UsingAArch32 s p = false := by
    simp [el2CanTrap]
  rw [← and_assoc, ← hg]
  cases h : el2CanTrap s p pe
  · simp [noTrap, trapTtlb, trapTtlbis, trapFineGrained, h]
  · simp only [noTrap, trapTtlb, trapTtlbis, trapFineGrained, h]
    grind

section access
variable {s : State} {p : Nat} {pe : Pe}

theorem access_notPresent (h : s.params.haveTlbiRange = false) :
    access s p pe = some .undefined := by
  simp [access, h]

theorem access_el0 (h : pe.el = .el0) : access s p pe = some .undefined := by
  simp [access, h]

/-- R72, R73: at EL1 any of the three conditions traps. -/
theorem access_el1 (hpresent : s.params.haveTlbiRange = true) (h : pe.el = .el1) :
    access s p pe = if noTrap s p pe then none else some el2Trap := by
  simp only [access, hpresent, h, noTrap]
  split_ifs <;> simp_all

theorem access_above_el1 (hpresent : s.params.haveTlbiRange = true) (h0 : pe.el ≠ .el0)
    (h1 : pe.el ≠ .el1) : access s p pe = none := by
  cases hel : pe.el <;> simp_all [access]

end access

section exec
variable {s : State} {p : Nat} {pe : Pe} (h : Executes s p pe) (t : BitVec 5)
include h

/-- R16: at the last word of the address space the instruction is refused. -/
theorem exec_at_lastPc (hpc : pe.pc.toNat = 2 ^ 64 - 4) :
    exec (.tlbiRvale1is t) s = s.refuse .noSuccessor := by
  rw [exec_tlbi h, tlbiRvale1isBy, if_pos (eq_lastPc_iff.2 hpc)]

/-- R97, R98: what the access check gives is raised. -/
theorem exec_of_access_some (hpc : pe.pc.toNat ≠ 2 ^ 64 - 4) {reason : FaultReason}
    (ha : access s p pe = some reason) :
    exec (.tlbiRvale1is t) s = .next (s.raise p reason (encode (.tlbiRvale1is t))) := by
  rw [exec_tlbi h, tlbiRvale1isBy, if_neg (mt eq_lastPc_iff.1 hpc), ha]

/-- R73, R90: where the access check gives nothing the operation on `X[t]` is issued. -/
theorem exec_of_access_none (hpc : pe.pc.toNat ≠ 2 ^ 64 - 4) (ha : access s p pe = none) :
    exec (.tlbiRvale1is t) s = .next (s.issue p pe (pe.readX t)) := by
  rw [exec_tlbi h, tlbiRvale1isBy, if_neg (mt eq_lastPc_iff.1 hpc), ha]

end exec

/-- Settles O6, branch by branch. -/
theorem accessCheckDecidesTheOutcome : Obligations.AccessCheckDecidesTheOutcome := by
  intro s p pe t h
  by_cases hpc : pe.pc.toNat = 2 ^ 64 - 4
  · rw [if_pos hpc, exec_at_lastPc h t hpc]
  rw [if_neg hpc]
  by_cases hpresent : s.params.haveTlbiRange = false
  · rw [if_pos hpresent, exec_of_access_some h t hpc (access_notPresent hpresent)]
  rw [if_neg hpresent]
  replace hpresent : s.params.haveTlbiRange = true := by simpa using hpresent
  by_cases h0 : pe.el = .el0
  · rw [if_pos h0, exec_of_access_some h t hpc (access_el0 h0)]
  rw [if_neg h0]
  by_cases h1 : pe.el = .el1
  · have ha := access_el1 (p := p) hpresent h1
    cases hn : noTrap s p pe
    · rw [if_pos ⟨h1, (noTrap_eq_false_iff s p pe).1 hn⟩]
      exact exec_of_access_some h t hpc (by simp [ha, hn, el2Trap])
    · rw [if_neg fun htrap => by simpa [hn] using (noTrap_eq_false_iff s p pe).2 htrap.2]
      exact exec_of_access_none h t hpc (by simp [ha, hn])
  · rw [if_neg fun htrap => h1 htrap.1,
      exec_of_access_none h t hpc (access_above_el1 hpresent h0 h1)]

/-- Settles O8: presence is tested first (C2). -/
theorem undefinedWhereNotPresent : Obligations.UndefinedWhereNotPresent := by
  intro s p pe t h hpresent
  have ha := access_notPresent (p := p) (pe := pe) hpresent
  refine ⟨ha, ?_⟩
  split
  · next hpc => exact exec_at_lastPc h t hpc
  · next hpc => exact exec_of_access_some h t hpc ha

/-- Settles O48: the mark is set where it is not set yet. -/
theorem noSuccessorIsRefused : Obligations.NoSuccessorIsRefused := by
  intro s p pe t h hpc
  rw [exec_at_lastPc h t hpc]
  exact ⟨fun hmark => by simp only [State.refuse, hmark],
    fun m hmark => by simp only [State.refuse, hmark]⟩

/-- R73: nothing is raised at EL1 without a trap condition, at EL2 or at EL3. -/
theorem access_eq_none {s : State} {p : Nat} {pe : Pe} (hpresent : s.params.haveTlbiRange = true)
    (hel : pe.el = .el1 ∧ noTrap s p pe = true ∨ pe.el = .el2 ∨ pe.el = .el3) :
    access s p pe = none := by
  rcases hel with ⟨h1, hn⟩ | h2 | h3
  · rw [access_el1 hpresent h1, hn]
    rfl
  · exact access_above_el1 hpresent (by simp [h2]) (by simp [h2])
  · exact access_above_el1 hpresent (by simp [h3]) (by simp [h3])

/-! ### The PEs after a raise and after an issue (R90, R92, R97, R98) -/

/-- The issuer has its `pc` advanced (R90). -/
theorem issue_pe?_self {s : State} {p : Nat} {pe : Pe} (h : s.pe? p = some pe) (v : Word) :
    (s.issue p pe v).pe? p = some pe.advance := by
  rw [issue_pe?, h, if_pos rfl]
  rfl

/-- Every other PE is as it was (R90). -/
theorem issue_pe?_of_ne {p q : Nat} (h : q ≠ p) (s : State) (pe : Pe) (v : Word) :
    (s.issue p pe v).pe? q = s.pe? q := by
  rw [issue_pe?, if_neg h.symm, Option.map_id_apply]

/-- Settles O7: the instruction issues. -/
theorem completesWhereNothingRaises : Obligations.CompletesWhereNothingRaises := by
  intro s p pe t h hpresent hel hpc
  exact ⟨_, exec_of_access_none h t hpc (access_eq_none hpresent hel), rfl,
    issue_pe?_self h.here _, fun q hq => issue_pe?_of_ne hq s pe _⟩

/-- A raise records the reason, `pc` and word at the PE (R97, R98, R100). -/
theorem raise_pe?_self {s : State} {p : Nat} {pe : Pe} (h : s.pe? p = some pe)
    (reason : FaultReason) (w : InstrWord) :
    (s.raise p reason w).pe? p = some { pe with fault := some ⟨reason, pe.pc, w⟩ } := by
  rw [State.raise, modifyPe_pe?, h, if_pos rfl]
  rfl

/-- Every other PE is as it was (R97, R98). -/
theorem raise_pe?_of_ne {p q : Nat} (h : q ≠ p) (s : State) (reason : FaultReason)
    (w : InstrWord) : (s.raise p reason w).pe? q = s.pe? q := by
  rw [State.raise, modifyPe_pe?, if_neg h.symm, Option.map_id_apply]

/-- A raise changes no TLB and no `Pending` set (R97, R98). -/
theorem raise_sets (s : State) (p : Nat) (reason : FaultReason) (w : InstrWord) (a : Nat) :
    ((s.raise p reason w).agents[a]?).map (fun ag => (ag.tlb, ag.pending)) =
      (s.agents[a]?).map (fun ag => (ag.tlb, ag.pending)) := by
  rw [raise_lookup, Option.map_map]
  split <;> rfl

/-- Settles O14: the three ways `exec` comes to a next state. -/
theorem raiseOrWholeIssue : Obligations.RaiseOrWholeIssue := by
  intro i s u hexec
  obtain ⟨t, p, pe, rfl, h, hcase⟩ := exec_next_cases hexec
  refine ⟨p, pe, h, ?_⟩
  rcases hcase with ⟨reason, -, -, rfl⟩ | ⟨-, -, rfl⟩ | ⟨hpc, -, rfl⟩
  · exact .inl ⟨_, raise_pe?_self h.here _ _, rfl, rfl, rfl, raise_sets s p _ _⟩
  · exact .inr (.inl ⟨t, rfl, rfl, issue_pe?_self h.here _⟩)
  · exact .inr (.inr ⟨eq_lastPc_iff.1 hpc, rfl⟩)

/-! ### The frame of an instruction (R33, R50, R92) -/

@[simp] theorem raise_agents_length (s : State) (p : Nat) (reason : FaultReason) (w : InstrWord) :
    (s.raise p reason w).agents.length = s.agents.length := by
  simp [State.raise]

@[simp] theorem issue_agents_length (s : State) (p : Nat) (pe : Pe) (v : Word) :
    (s.issue p pe v).agents.length = s.agents.length := by
  simp [State.issue]

/-- What an instruction can make of PE `q`: nothing, or, where it is the PE that executes, one with
its fault record or its `pc` changed. -/
theorem exec_pe?_cases {i : Instr} {s u : State} (hexec : exec i s = .next u) {q : Nat} {pe : Pe}
    (hq : s.pe? q = some pe) :
    u.pe? q = some pe ∨ (s.turn = .instruction q ∧
      ((∃ r, u.pe? q = some { pe with fault := some r }) ∨ u.pe? q = some pe.advance)) := by
  obtain ⟨t, p, core, -, h, hcase⟩ := exec_next_cases hexec
  by_cases hqp : q = p
  · subst hqp
    cases hq.symm.trans h.here
    rcases hcase with ⟨reason, -, -, rfl⟩ | ⟨-, -, rfl⟩ | ⟨-, -, rfl⟩
    · exact .inr ⟨h.turn, .inl ⟨_, raise_pe?_self hq _ _⟩⟩
    · exact .inr ⟨h.turn, .inr (issue_pe?_self hq _)⟩
    · exact .inl hq
  · rcases hcase with ⟨reason, -, -, rfl⟩ | ⟨-, -, rfl⟩ | ⟨-, -, rfl⟩
    · exact .inl ((raise_pe?_of_ne hqp _ _ _).trans hq)
    · exact .inl ((issue_pe?_of_ne hqp _ _ _).trans hq)
    · exact .inl hq

/-- An instruction leaves the parameters, the turn, the draws and the number of agents (R92). -/
theorem exec_system_frame {i : Instr} {s u : State} (hexec : exec i s = .next u) :
    u.params = s.params ∧ u.turn = s.turn ∧ u.draws = s.draws ∧
      u.agents.length = s.agents.length := by
  obtain ⟨t, p, pe, -, -, hcase⟩ := exec_next_cases hexec
  rcases hcase with ⟨reason, -, -, rfl⟩ | ⟨-, -, rfl⟩ | ⟨-, -, rfl⟩
  · simp
  · simp
  · exact ⟨rfl, rfl, rfl, rfl⟩

/-- Settles O37, from what an instruction does to the system and to each PE. -/
theorem instructionFrame : Obligations.InstructionFrame := by
  intro i s u hexec
  obtain ⟨hparams, hturn, hdraws, hlength⟩ := exec_system_frame hexec
  refine ⟨hparams, hturn, hdraws, hlength, fun q pe hq => ?_⟩
  rcases exec_pe?_cases hexec hq with hu | ⟨ht, ⟨r, hu⟩ | hu⟩
  · exact ⟨_, hu, rfl, rfl, rfl, rfl, rfl, rfl, rfl, fun _ => rfl, fun _ => rfl, .inl rfl⟩
  · exact ⟨_, hu, rfl, rfl, rfl, rfl, rfl, rfl, rfl, fun _ => rfl, fun hne => absurd ht hne,
      .inr rfl⟩
  · exact ⟨_, hu, rfl, rfl, rfl, rfl, rfl, rfl, rfl, fun _ => rfl, fun hne => absurd ht hne,
      .inl rfl⟩

/-! ### The agents a request reaches (R28, R86, R113) -/

/-- Agents of one domain exist, with one domain number (log 10). -/
theorem sameDomain_iff {s : State} {a b : Nat} :
    s.sameDomain a b = true ↔
      ∃ x y, s.agents[a]? = some x ∧ s.agents[b]? = some y ∧ x.domain = y.domain := by
  unfold State.sameDomain
  cases s.agents[a]? <;> cases s.agents[b]? <;> simp

/-- With pending completion an issue adds its request at an agent of the domain (R90). -/
theorem requestFor_mem_issueAt {s : State} {p a : Nat} (hdomain : s.sameDomain p a = true)
    (hc : s.params.completion = .pending) (pe : Pe) (v : Word) (ag : Agent) :
    requestFor s p pe v a ag.kind ∈ (issueAt s p pe v a ag).pending := by
  rw [issueAt, if_pos hdomain, deliver, hc]
  exact List.mem_append_right _ (List.mem_singleton_self _)

/-- What pends at an agent after an issue (R90). -/
theorem issue_lookup_pending {s : State} {p : Nat} {pe : Pe} {v : Word} {a : Nat} {ag' : Agent}
    (h : (s.issue p pe v).agents[a]? = some ag') :
    ∃ ag, s.agents[a]? = some ag ∧ ag'.pending = (issueAt s p pe v a ag).pending := by
  rw [issue_lookup] at h
  obtain ⟨ag, ha, rfl⟩ := Option.map_eq_some_iff.1 h
  exact ⟨ag, ha, by split <;> rfl⟩

/-- Settles O33: the number of the new request is above every number that pends before, so only the
new request can carry it. -/
theorem requestReachesExactlyTheDomain : Obligations.RequestReachesExactlyTheDomain := by
  refine fun s u p pe t => ⟨fun a b => sameDomain_iff, fun hwf hc h ha hpc hexec => ?_⟩
  cases (exec_of_access_none h t hpc ha).symm.trans hexec
  obtain ⟨ag₀, h₀, -⟩ := pe?_eq_some.1 h.here
  refine ⟨sameDomain_self h₀, fun a ag' hu => ?_⟩
  obtain ⟨ag, hag, hpending⟩ := issue_lookup_pending hu
  rw [hpending]
  constructor
  · rintro ⟨r, hr, hid⟩
    rcases mem_issueAt_pending hr with hold | ⟨hdomain, -⟩
    · obtain ⟨-, -, hissued, -⟩ := (agent_wf_iff _ _ _).1 (agent_wf_of_lookup hwf hag)
      exact absurd hid (hissued r hold).1.ne
    · exact hdomain
  · exact fun hdomain => ⟨_, requestFor_mem_issueAt hdomain hc pe _ ag, rfl⟩

/-! ### Evict and fill (R51) -/

/-- Agent `a` after its evict turn. -/
theorem evict_lookup_self {s : State} {a : Nat} {ag : Agent} (h : s.agents[a]? = some ag)
    (e : TlbEntry) : (s.evict a e).agents[a]? = some { ag with tlb := ag.tlb.without e } := by
  rw [evict_lookup, h, if_pos rfl]
  rfl

/-- Agent `a` after a fill turn that TLBFill admits. -/
theorem fill_lookup_self {s : State} {a : Nat} {ag : Agent} (h : s.agents[a]? = some ag)
    {e : TlbEntry} (hallowed : fillAllowed s a e = true) :
    (s.fill a e).agents[a]? = some { ag with tlb := ag.tlb.add e } := by
  rw [fill_lookup, h, if_pos ⟨hallowed, rfl⟩]
  rfl

/-- A forbidden fill changes nothing (log 3). -/
theorem fill_of_not_allowed {s : State} {a : Nat} {e : TlbEntry}
    (h : fillAllowed s a e = false) : s.fill a e = s := by
  simp [State.fill, h]

/-- TLBFill (P13), as its value or as the free value of log 17. -/
theorem fillAllowed_iff (s : State) (a : Nat) (e : TlbEntry) :
    fillAllowed s a e = true ↔ e.wf s.params = true ∧
      (s.params.tlbFill = .fixed true ∨
        s.params.tlbFill = .perState ∧ Config.tlbFill s.draws a e = true) := by
  unfold fillAllowed
  cases s.params.tlbFill <;> simp

/-- Whatever the turn was, a fill turn is the fill step (R51). -/
theorem step_fill_turn (s : State) (a : Nat) (e : TlbEntry) :
    step { s with turn := .fill a e } =
      .next (State.fill { s with turn := .fill a e } a e).pass := rfl

/-- Settles O44: the evict and fill steps at the agent they name. -/
theorem evictAndFillAtAnyTime : Obligations.EvictAndFillAtAnyTime := by
  intro s a ag e ha
  refine ⟨⟨_, _, rfl, evict_lookup_self ha e, rfl, Tlb.mem_without ag.tlb e⟩,
    fun hallowed => ⟨_, _, rfl,
      fill_lookup_self (s := { s with turn := .fill a e }) ha hallowed, rfl,
      Tlb.mem_add ag.tlb e⟩,
    fun hforbidden => ?_, fillAllowed_iff s a e⟩
  have hfill : ({ s with turn := .fill a e } : State).fill a e = { s with turn := .fill a e } :=
    fill_of_not_allowed hforbidden
  rw [step_fill_turn, hfill]

/-! ### The range condition in terms of addresses (R30, R31, R83) -/

theorem translates_iff (e : TlbEntry) (va : Nat) :
    e.translates va = true ↔ e.base ≤ va ∧ va < e.base + e.size := by
  simp [TlbEntry.translates]

/-- An entry record translates some address, and none above the address space (R30). -/
theorem span_of_entry_wf {c : Params} {e : TlbEntry} (h : e.wf c = true) :
    0 < e.size ∧ e.base + e.size ≤ 2 ^ 64 := by
  simp only [TlbEntry.wf, Bool.and_eq_true, decide_eq_true_eq] at h
  obtain ⟨⟨⟨hsize, hspan⟩, -⟩, -⟩ := h
  exact ⟨hsize, hspan⟩

/-- Settles O27: where entry and range meet, they meet at the higher of the two bases; a contained
entry is contained at its first and its last address. -/
theorem rangeConditionIsAboutAddresses : Obligations.RangeConditionIsAboutAddresses := by
  intro c e base limit hwf hbase hlimit
  obtain ⟨hsize, hspan⟩ := span_of_entry_wf hwf
  simp only [rangeCond, translates_iff, Bool.and_eq_true, decide_eq_true_eq]
  refine ⟨⟨fun h => ⟨max base e.base, by omega⟩, fun ⟨va, h⟩ => by omega⟩,
    fun h va hva => by omega, fun h => ?_⟩
  have hfirst := h e.base (by omega)
  have hlast := h (e.base + e.size - 1) (by omega)
  omega

/-! ### Spellings (R15, R66, R67) -/

/-- The printed operand exists and stands for the register number (R66, log 12). -/
theorem disassemble_assemble (i : Instr) : (disassemble i).assemble = some i := by
  obtain ⟨t⟩ := i
  by_cases ht : t = 31#5
  · subst ht
    rfl
  · have hle : t.toNat ≤ 30 := by bv_omega
    simp [disassemble, ht, Asm.assemble, Asm.wellFormed, optionalXRegWellFormed, XReg.wellFormed,
      registerNumber, hle]

/-- Settles O5. The `SYS` spelling has the selectors of R54, so only its operand is left to check. -/
theorem spellingsAssembleToOneInstruction : Obligations.SpellingsAssembleToOneInstruction := by
  refine ⟨disassemble_assemble, rfl, rfl, fun n hn => ?_, fun xt => ?_⟩
  · simp [Asm.assemble, Asm.wellFormed, optionalXRegWellFormed, XReg.wellFormed, registerNumber, hn]
  · cases hxt : optionalXRegWellFormed xt <;> simp [Asm.assemble, Asm.wellFormed, hxt]

end Sys2Proof.Machine
end

section
/-! PROOFS. Memory (`20_memory.md`): the word of the instruction and its bytes, the fetch that runs
it, the bounds of its range, the entries it never requires, and what performing a request does. -/

namespace Sys2Proof.Machine

/-! ### The word (R53 to R55, log 4) and its bytes (R37) -/

/-- Bits 31 to 5 of the instruction's word, the same for every register number (R55). -/
def fixedBits : BitVec 27 := patternMatch.extractLsb' 5 27

theorem encode_eq_append (t : BitVec 5) : encode (.tlbiRvale1is t) = fixedBits ++ t :=
  congrArg (· ++ t) (by decide)

/-- The mask of R55 clears the register number. -/
theorem append_and_patternMask (f : BitVec 27) (t : BitVec 5) :
    (f ++ t) &&& patternMask = f ++ 0#5 := by
  have hmask : patternMask = BitVec.allOnes 27 ++ 0#5 := by decide
  rw [hmask, BitVec.and_append, BitVec.and_allOnes, BitVec.and_zero]

/-- R55: the fixed bits decide, and the register number is read off. -/
theorem decode_append (f : BitVec 27) (t : BitVec 5) :
    decode (f ++ t) =
      if f = fixedBits then .instr (.tlbiRvale1is t) else .unknown (f ++ t) := by
  have hmatch : patternMatch = fixedBits ++ 0#5 := by decide
  have hfixed : (f ++ t) &&& patternMask = patternMatch ↔ f = fixedBits := by
    rw [append_and_patternMask, hmatch, BitVec.append_left_inj]
  have ht : (f ++ t).extractLsb' 0 5 = t := BitVec.extractLsb'_append_eq_right
  simp only [decode, hfixed, ht]

/-- A word is its fixed bits and its register number (R53). -/
theorem extractLsb'_append_extractLsb' (w : InstrWord) :
    w.extractLsb' 5 27 ++ w.extractLsb' 0 5 = w :=
  (BitVec.extractLsb'_append_extractLsb'_eq_extractLsb' rfl).trans BitVec.extractLsb'_eq_self

/-- A word decodes to an instruction exactly when it is its encoding. -/
theorem decode_eq_instr_iff (w : InstrWord) (i : Instr) : decode w = .instr i ↔ w = encode i := by
  obtain ⟨t⟩ := i
  have hw := (extractLsb'_append_extractLsb' w).symm
  rw [encode_eq_append]
  constructor
  · intro h
    rw [hw, decode_append] at h
    split at h
    · next hf =>
      cases h
      rwa [← hf]
    · cases h
  · rintro rfl
    rw [decode_append, if_pos rfl]

/-- The byte decoder reads the first four bytes as one word (R37, R53). -/
theorem decodeBytes_eq_ok_iff (b0 b1 b2 b3 : Byte) (rest : List Byte) (i : Instr) :
    decodeBytes (b0 :: b1 :: b2 :: b3 :: rest) = .ok (i, rest) ↔
      decode (wordOfBytes b0 b1 b2 b3) = .instr i := by
  simp only [decodeBytes]
  split <;> simp_all

/-- Settles O1: on words by the fixed bits, on bytes because the four bytes of a word make it up
again. -/
theorem encodeAndDecodeAreInverse : Obligations.EncodeAndDecodeAreInverse := by
  intro i _
  have hdecode : decode (encode i) = .instr i := (decode_eq_instr_iff _ _).2 rfl
  refine ⟨hdecode, fun w => (decode_eq_instr_iff w i).1, fun rest => ?_⟩
  refine (decodeBytes_eq_ok_iff _ _ _ _ rest i).2 ?_
  rwa [Laws.byte_order_round_trip]

/-! ### The instruction that is fetched (R37, R39, R125) -/

/-- Four bytes in the text at `pc` are the word that is fetched there. -/
theorem fetchWord_of_bytes {pe : Pe} {b0 b1 b2 b3 : Byte}
    (h0 : pe.text.read pe.pc.toNat = some b0) (h1 : pe.text.read (pe.pc.toNat + 1) = some b1)
    (h2 : pe.text.read (pe.pc.toNat + 2) = some b2)
    (h3 : pe.text.read (pe.pc.toNat + 3) = some b3) :
    pe.fetchWord = .word (wordOfBytes b0 b1 b2 b3) := by
  simp only [Pe.fetchWord, h0, h1, h2, h3]

/-- Where an instruction is fetched, the step is `exec` of it, after which the turn passes on. -/
theorem step_of_fetch_instr {s : State} {p : Nat} {pe : Pe} {w : InstrWord} {i : Instr}
    (h : Executes s p pe) (hfetch : pe.fetch = .word w) (hw : decode w = .instr i) :
    step s = passing (exec i s) := by
  have hnext : pe.next = .run i := by
    simp only [next_of_executes h, hfetch, fetchedStep, decodedStep, hw]
  simp only [step, h.turn, instructionStep, h.here, hnext]

/-- Settles O46: the four bytes are the word fetched, and it decodes to the instruction. -/
theorem stepRunsTheDecodedInstruction : Obligations.StepRunsTheDecodedInstruction := by
  intro s p pe c b0 b1 b2 b3 i hexec hc htop hpc hlo hhi h0 h1 h2 h3 hdecode _
  have hfetch : pe.fetch = .word (wordOfBytes b0 b1 b2 b3) :=
    (fetch_inside hc htop hpc hlo hhi).trans (fetchWord_of_bytes h0 h1 h2 h3)
  exact step_of_fetch_instr hexec hfetch ((decodeBytes_eq_ok_iff _ _ _ _ [] i).1 hdecode)

/-- The PE that `State.placed` leaves: one word at its `pc`, and no fault (log 11). -/
def Pe.placed (pe : Pe) (w : InstrWord) : Pe := { pe.load pe.pc [w] with fault := none }

/-- The PE at which a word was placed executes. -/
theorem executes_placed {s : State} {p : Nat} {pe : Pe} (h : s.pe? p = some pe) (w : InstrWord) :
    Executes (s.placed p w) p (pe.placed w) where
  turn := rfl
  here := by
    show (s.modifyPe p fun pe => pe.placed w).pe? p = _
    rw [modifyPe_pe?, h, if_pos rfl]
    rfl
  noFault := rfl

/-- At an aligned `pc` the PE at which a word was placed fetches it: the one word of its program
ends at `2^64` at the latest. -/
theorem fetch_placed {pe : Pe} (hpc : pe.pc.toNat % 4 = 0) (w : InstrWord) :
    (pe.placed w).fetch = .word w := by
  have hlimit : Program.limit ⟨pe.pc, 1⟩ = pe.pc.toNat + 4 := rfl
  have htop : Program.limit ⟨pe.pc, 1⟩ ≤ 2 ^ 64 := by have := pe.pc.isLt; omega
  have hhi : pe.pc.toNat < Program.limit ⟨pe.pc, 1⟩ := by omega
  obtain ⟨h0, h1, h2, h3⟩ := read_writeBytes_four pe.text pe.pc hpc (byteOfWord w 0)
    (byteOfWord w 1) (byteOfWord w 2) (byteOfWord w 3)
  calc (pe.placed w).fetch
      = (pe.placed w).fetchWord :=
        fetch_inside rfl htop hpc le_rfl hhi
    _ = .word (wordOfBytes (byteOfWord w 0) (byteOfWord w 1) (byteOfWord w 2) (byteOfWord w 3)) :=
        fetchWord_of_bytes h0 h1 h2 h3
    _ = .word w := by rw [Laws.byte_order_round_trip]

/-- All 32 bits of a word number it in the opcode table. -/
theorem tableWord_toNat (w : InstrWord) : tableWord 32 w.toNat = w := by
  rw [tableWord, Nat.mod_eq_of_lt w.isLt, BitVec.ofNat_toNat, BitVec.setWidth_eq]

/-- Settles O60: the placed word is fetched and is the encoding of the instruction. -/
theorem placedInstructionIsRunNext : Obligations.PlacedInstructionIsRunNext := by
  intro s p pe i hturn hpe hpc
  have hplace : s.withFetchWord 32 (encode i).toNat = s.placed p (encode i) := by
    simp only [State.withFetchWord, tableWord_toNat, State.turnPe, hturn]
  rw [hplace]
  exact step_of_fetch_instr (executes_placed hpe _) (fetch_placed hpc _)
    ((decode_eq_instr_iff _ _).2 rfl)

/-! ### The numbers of the range (R36, R95) -/

theorem operandScale_le (v : Word) : operandScale v ≤ 3 :=
  Nat.le_of_lt_succ (v.extractLsb' 44 2).isLt

theorem operandNum_le (v : Word) : operandNum v ≤ 31 :=
  Nat.le_of_lt_succ (v.extractLsb' 39 5).isLt

/-- R78: the power of two in `Size` has an exponent of at least 1. -/
theorem two_granules_dvd_operandSize (g : Granule) (v : Word) :
    2 * granuleSize g ∣ operandSize g v :=
  ⟨(operandNum v + 1) * 2 ^ (5 * operandScale v), by unfold operandSize rangeSize; ring⟩

/-- Settles O22. -/
theorem rangeArithmeticBounds : Obligations.RangeArithmeticBounds := by
  intro c g v
  obtain ⟨hmin, hmax, hbase, haligned⟩ := operand_bounds c g v
  exact ⟨operandScale_le v, operandNum_le v, hmin, hmax,
    Nat.mod_eq_zero_of_dvd (two_granules_dvd_operandSize g v), hbase, haligned,
    Nat.add_lt_add_of_lt_of_le hbase hmax⟩

/-! ### Entries that are never required (R42, R83, R94) -/

/-- `Match(e)` of R83, condition by condition, with the narrowing of R88. -/
theorem Selector.selects_iff (q : Selector) (e : TlbEntry) :
    q.selects e = true ↔
      e.stage1 = true ∧ e.final = true ∧ q.asidCond e = true ∧ e.sec = q.sec ∧
        e.regime = q.regime ∧ q.vmidCond e = true ∧ e.granule = q.granule ∧
        q.levelCond e = true ∧ rangeCond q.rangeMatch q.base q.limit e = true ∧
        (q.vmidZeroOnly = true → e.vmid = 0#16) := by
  simp [Selector.selects, and_assoc, or_iff_not_imp_left]

/-- `LCond` (R81): a level that is named is the entry's. -/
theorem Selector.levelCond_iff (q : Selector) (e : TlbEntry) :
    q.levelCond e = true ↔ ∀ l, q.level = some l → e.level = l := by
  unfold Selector.levelCond
  cases q.level <;> simp

/-- R81: every effective TTL but `0b00` names a level, and none names level 0. -/
theorem exists_levelOf {ttl : BitVec 2} (h : ttl ≠ 0b00#2) :
    ∃ l, levelOf ttl = some l ∧ l ≠ 0 := by
  decide +revert

/-- Settles O29: each is a condition of the selector, or of what a selector can hold. -/
theorem neverRequiredEntries : Obligations.NeverRequiredEntries := by
  intro s p pe v a kind e hreq
  obtain ⟨g, hg, hsel⟩ := selects_of_requires hreq
  obtain ⟨hstage1, hfinal, -, -, hregime, -, hgranule, hlevel, -, -⟩ :=
    (Selector.selects_iff _ e).1 hsel
  have hgranule : e.granule = g := hgranule
  subst hgranule
  refine ⟨hstage1, hfinal, hregime ▸ targetRegime_ne_other _ _, hg, fun hzero => ?_⟩
  by_contra httl
  obtain ⟨l, hl, hne⟩ := exists_levelOf httl
  exact hne (((Selector.levelCond_iff _ e).1 hlevel l hl).symm.trans hzero)

/-! ### Performing a request (R48, R49, R52, R91) -/

/-- Pending requests of one agent with one number are one request (R32, log 13). -/
theorem eq_of_pending_id {l : List Request} (h : l.Pairwise fun r r' => r.id ≠ r'.id)
    {r r' : Request} (hr : r ∈ l) (hr' : r' ∈ l) (hid : r'.id = r.id) : r' = r := by
  have hfind := find_pending h hr'
  rw [hid, find_pending h hr] at hfind
  exact (Option.some.inj hfind).symm

/-- In a well-formed system the pending requests of an agent have distinct numbers (R32). -/
theorem pending_distinct {s : State} (hwf : s.wf = true) {a : Nat} {ag : Agent}
    (ha : s.agents[a]? = some ag) : ag.pending.Pairwise fun r r' => r.id ≠ r'.id := by
  obtain ⟨-, hdistinct, -⟩ := (agent_wf_iff _ _ _).1 (agent_wf_of_lookup hwf ha)
  exact hdistinct

/-- Agent `a` after its perform turn for a request that pends there (R91). -/
theorem perform_lookup_self {s : State} (hwf : s.wf = true) {a : Nat} {ag : Agent}
    (ha : s.agents[a]? = some ag) {r : Request} (hr : r ∈ ag.pending) (also : List TlbEntry) :
    (s.perform a r.id also).agents[a]? = some (ag.perform r also) := by
  have hperform : performAt r.id also ag = ag.perform r also := by
    simp only [performAt, find_pending (pending_distinct hwf ha) hr]
  rw [perform_lookup, ha, if_pos rfl, Option.map_some, hperform]

/-- After a request is performed no request of its number pends at that agent. -/
theorem id_ne_of_mem_perform {s : State} (hwf : s.wf = true) {a : Nat} {ag : Agent}
    (ha : s.agents[a]? = some ag) {r : Request} (hr : r ∈ ag.pending) (also : List TlbEntry)
    {r' : Request} (hr' : r' ∈ (ag.perform r also).pending) : r'.id ≠ r.id := by
  have hdistinct := pending_distinct hwf ha
  obtain ⟨hmem, hne⟩ : r' ∈ ag.pending ∧ r' ≠ r := by
    have herase : r' ∈ ag.pending.erase r := hr'
    simpa [erase_pending hdistinct r] using herase
  exact fun hid => hne (eq_of_pending_id hdistinct hr hmem hid)

/-- Settles O40: what is left of the TLB, and of the pending requests. -/
theorem performedRequestLeavesNoRequiredEntry :
    Obligations.PerformedRequestLeavesNoRequiredEntry := by
  intro s u a ag r also hwf ha hr hturn hstep
  have hu : step s = .next (s.perform a r.id also).pass := by simp only [step, hturn]
  cases hu.symm.trans hstep
  have htlb : ∀ e ∈ (ag.perform r also).tlb, e ∈ ag.tlb ∧ requires r.required e = false ∧
      e ∉ also := fun e => (Tlb.mem_remove ag.tlb r.required also e).1
  exact ⟨_, perform_lookup_self hwf ha hr also, fun e he => (htlb e he).2.1,
    fun e he => (htlb e he).1, fun hmem => id_ne_of_mem_perform hwf ha hr also hmem rfl⟩

/-- A perform turn is a change of its agent alone (R91). -/
theorem perform_eq_modifyAgent (s : State) (a id : Nat) (also : List TlbEntry) :
    s.perform a id also = s.modifyAgent a (performAt id also) := by
  have hframe : s.perform a id also = { s with agents := (s.perform a id also).agents } := by
    unfold State.perform
    split <;> rfl
  have hagents : (s.perform a id also).agents = s.agents.modify a (performAt id also) :=
    List.ext_getElem? fun b => by
      rw [perform_lookup, ← modifyAgent_agents, modifyAgent_lookup]
      rfl
  rw [hframe, hagents]
  rfl

theorem Tlb.remove_comm (t : Tlb) (q q' : Option Selector) (x y : List TlbEntry) :
    (t.remove q x).remove q' y = (t.remove q' y).remove q x :=
  List.filter_comm _ _ t

theorem Agent.perform_comm (ag : Agent) (r r' : Request) (x y : List TlbEntry) :
    (ag.perform r x).perform r' y = (ag.perform r' y).perform r x := by
  simp only [Agent.perform, Tlb.remove_comm ag.tlb r.required, List.erase_comm r]

theorem performAt_of_find {id : Nat} {ag : Agent} {r : Request}
    (h : (ag.pending.find? fun r => r.id == id) = some r) (also : List TlbEntry) :
    performAt id also ag = ag.perform r also := by
  simp only [performAt, h]

theorem performAt_of_find_none {id : Nat} {ag : Agent}
    (h : (ag.pending.find? fun r => r.id == id) = none) (also : List TlbEntry) :
    performAt id also ag = ag := by
  simp only [performAt, h]

/-- A perform leaves the request of another number to be found. -/
theorem find_perform {i j : Nat} (h : i ≠ j) {ag : Agent} {r : Request}
    (hr : (ag.pending.find? fun r => r.id == i) = some r) (also : List TlbEntry) :
    ((ag.perform r also).pending.find? fun r => r.id == j) =
      ag.pending.find? fun r => r.id == j :=
  find_erase h (by simpa using List.find?_some hr)

/-- At one agent, requests of different numbers can be performed in either order (R49): each leaves
the other to be found, or finds nothing. -/
theorem performAt_comm {i j : Nat} (h : i ≠ j) (x y : List TlbEntry) (ag : Agent) :
    performAt j y (performAt i x ag) = performAt i x (performAt j y ag) := by
  rcases hi : ag.pending.find? (fun r => r.id == i) with _ | r
  · rw [performAt_of_find_none hi]
    rcases hj : ag.pending.find? (fun r => r.id == j) with _ | r'
    · rw [performAt_of_find_none hj, performAt_of_find_none hi]
    · rw [performAt_of_find hj, performAt_of_find_none ((find_perform h.symm hj y).trans hi)]
  · rw [performAt_of_find hi]
    rcases hj : ag.pending.find? (fun r => r.id == j) with _ | r'
    · rw [performAt_of_find_none hj, performAt_of_find hi,
        performAt_of_find_none ((find_perform h hi x).trans hj)]
    · rw [performAt_of_find hj, performAt_of_find ((find_perform h hi x).trans hj),
        performAt_of_find ((find_perform h.symm hj y).trans hi), Agent.perform_comm]

/-- Changes of two agents commute; changes of one do where they commute as functions. -/
theorem modifyAgent_comm (s : State) {a b : Nat} {f g : Agent → Agent}
    (h : a = b → ∀ ag, g (f ag) = f (g ag)) :
    (s.modifyAgent a f).modifyAgent b g = (s.modifyAgent b g).modifyAgent a f := by
  have hagents : ((s.modifyAgent a f).modifyAgent b g).agents =
      ((s.modifyAgent b g).modifyAgent a f).agents := List.ext_getElem? fun k => by
    simp only [modifyAgent_lookup, Option.map_map]
    congr 1
    funext ag
    by_cases ha : a = k <;> by_cases hb : b = k <;> simp [ha, hb]
    exact h (ha.trans hb.symm) ag
  exact congrArg (fun l => { s with agents := l }) hagents

/-- Settles O41: at two agents the changes are of different agents, at one they commute. -/
theorem performsCommute : Obligations.PerformsCommute := by
  intro s a b i j x y hne
  simp only [perform_eq_modifyAgent]
  exact modifyAgent_comm s fun hab =>
    performAt_comm (hne.resolve_left (not_not_intro hab)) x y

/-- `Completed(r)` (R48), agent by agent. -/
theorem completed_iff (s : State) (id : Nat) :
    s.completed id = true ↔
      ∀ (a : Nat) (ag : Agent), s.agents[a]? = some ag → ∀ r ∈ ag.pending, r.id ≠ id := by
  simp only [State.completed, List.all_eq_true, bne_iff_ne]
  constructor
  · exact fun h a ag ha => h ag (List.mem_of_getElem? ha)
  · intro h ag hag
    obtain ⟨a, ha⟩ := List.getElem?_of_mem hag
    exact h a ag ha

/-- Settles O42: before, the request pends at `a`; after, it pends neither there nor elsewhere. -/
theorem lastPerformCompletesTheRequest : Obligations.LastPerformCompletesTheRequest := by
  intro s a ag r also hwf ha hr hothers
  refine ⟨Bool.eq_false_iff.2 fun h => (completed_iff _ _).1 h a ag ha r hr rfl,
    (completed_iff _ _).2 fun b other hb r' hr' => ?_⟩
  by_cases hba : b = a
  · subst hba
    cases hb.symm.trans (perform_lookup_self hwf ha hr also)
    exact id_ne_of_mem_perform hwf ha hr also hr'
  · rw [perform_lookup, if_neg (Ne.symm hba), Option.map_id'] at hb
    exact hothers b other hba hb r' hr'

end Sys2Proof.Machine
end

section
/-! PROOFS. The encoding (`30_encoding.md`): the words that are the instruction, the fields of a word
and of the operand value, and the required predicate in terms of those fields. -/

namespace Sys2Proof.Machine

/-! ### The word (R53 to R55, R68, log 4) -/

/-- R55, R68: the pattern decides whether a word is the instruction, and its low five bits name the
register. -/
theorem decode_eq_tlbi_iff (w : InstrWord) (t : BitVec 5) :
    decode w = .instr (.tlbiRvale1is t) ↔
      w &&& patternMask = patternMatch ∧ t = w.extractLsb' 0 5 := by
  unfold decode
  split
  · next h => simp [h, eq_comm]
  · next h => simp [h]

/-- R68: any other word is Unknown. -/
theorem decode_eq_unknown {w : InstrWord} (h : w &&& patternMask ≠ patternMatch) :
    decode w = .unknown w :=
  if_neg h

/-- The word of register number `t` is the pattern with `t` in its low bits (R55). -/
theorem patternMatch_or_eq_encode (t : BitVec 5) :
    patternMatch ||| t.setWidth 32 = encode (.tlbiRvale1is t) := by
  have hpattern : patternMatch = fixedBits ++ 0#5 := by decide
  have ht : t.setWidth 32 = 0#27 ++ t := BitVec.setWidth_eq_append (by omega)
  rw [encode_eq_append, hpattern, ht, BitVec.or_append, BitVec.or_zero, BitVec.zero_or]

/-- Above the register number stand the fixed bits (R53). -/
theorem encode_extractLsb'_of_fixedBits (t : BitVec 5) {start len : Nat} {x : BitVec len}
    (hstart : 5 ≤ start) (hx : fixedBits.extractLsb' (start - 5) len = x) :
    (encode (.tlbiRvale1is t)).extractLsb' start len = x := by
  rw [encode_eq_append, ← hx]
  exact BitVec.extractLsb'_append_eq_of_le hstart

/-- Bit 21 of the instruction's word, `L`, is 0 (R53, R54). -/
theorem encode_getLsbD_21 (t : BitVec 5) : (encode (.tlbiRvale1is t)).getLsbD 21 = false := by
  have hfixed : fixedBits.getLsbD (21 - 5) = false := by decide
  rw [encode_eq_append, BitVec.getLsbD_append, if_neg (by omega), hfixed]

/-- Settles O2: the pattern is the one `decode` tests, and every word that passes is an encoding. -/
theorem wordPatternSelectsTheInstruction : Obligations.WordPatternSelectsTheInstruction := by
  refine fun w t => ⟨decode_eq_tlbi_iff w t, ?_, fun h => ?_, decode_eq_unknown⟩
  · exact (decode_eq_instr_iff _ _).2 (patternMatch_or_eq_encode t)
  · rw [(decode_eq_instr_iff _ _).1 h]
    exact encode_getLsbD_21 _

/-- Settles O3: the selectors are in the fixed bits (R54), the register number is below them. -/
theorem encodedWordHasTheSelectors : Obligations.EncodedWordHasTheSelectors := by
  intro t
  refine ⟨?_, ?_, ?_, ?_, ?_, ?_, ?_, BitVec.extractLsb'_append_eq_right⟩ <;>
    exact encode_extractLsb'_of_fixedBits t (by decide) (by decide)

/-- Settles O4, word by word. -/
theorem listedWordsDecodeAsListed : Obligations.ListedWordsDecodeAsListed :=
  ⟨by decide, by decide⟩

/-! ### The fields of the operand value (R57, R75) -/

/-- The SCALE field is the two bits of its number. -/
theorem ofNat_operandScale (v : Word) : BitVec.ofNat 2 (operandScale v) = v.extractLsb' 44 2 := by
  rw [operandScale, BitVec.ofNat_toNat, BitVec.setWidth_eq]

/-- The NUM field is the five bits of its number. -/
theorem ofNat_operandNum (v : Word) : BitVec.ofNat 5 (operandNum v) = v.extractLsb' 39 5 := by
  rw [operandNum, BitVec.ofNat_toNat, BitVec.setWidth_eq]

/-- Settles O18: each field begins where the one before it ends. -/
theorem fieldsMakeUpTheOperand : Obligations.FieldsMakeUpTheOperand := by
  intro v
  have hjoin {start len start' len' : Nat} (h : start = start' + len') :
      v.extractLsb' start len ++ v.extractLsb' start' len' = v.extractLsb' start' (len + len') :=
    BitVec.extractLsb'_append_extractLsb'_eq_extractLsb' h
  rw [ofNat_operandScale, ofNat_operandNum, operandAsid, operandTg, operandTtl, operandBaf]
  have h46 : v.extractLsb' 48 16 ++ v.extractLsb' 46 2 = v.extractLsb' 46 18 := hjoin rfl
  have h44 : v.extractLsb' 46 18 ++ v.extractLsb' 44 2 = v.extractLsb' 44 20 := hjoin rfl
  have h39 : v.extractLsb' 44 20 ++ v.extractLsb' 39 5 = v.extractLsb' 39 25 := hjoin rfl
  have h37 : v.extractLsb' 39 25 ++ v.extractLsb' 37 2 = v.extractLsb' 37 27 := hjoin rfl
  have h0 : v.extractLsb' 37 27 ++ v.extractLsb' 0 37 = v.extractLsb' 0 64 := hjoin rfl
  rw [h46, h44, h39, h37, h0, BitVec.extractLsb'_eq_self]

/-! ### The required predicate, condition by condition (R76, R80 to R89) -/

/-- `AsidOK` (R82, R64): 16 bits are in use, or the bits above an 8-bit ASID are 0. -/
theorem asidOk_iff (s : State) (p : Nat) (v : Word) :
    asidOk s p v = true ↔ asidBitsInUse s p = .bits16 ∨ v.extractLsb' 56 8 = 0#8 := by
  simp [asidOk, operandUpperAsid]

/-- `ACond` (R82). -/
theorem Selector.asidCond_iff (q : Selector) (e : TlbEntry) :
    q.asidCond e = true ↔
      e.global = true ∨ e.global = false ∧ q.asidOk = true ∧ e.asid = q.asid := by
  simp [Selector.asidCond, and_assoc]

/-- `VCond` (R80): a VMID that is compared is the entry's. -/
theorem Selector.vmidCond_iff (q : Selector) (e : TlbEntry) :
    q.vmidCond e = true ↔ ∀ m, q.vmid = some m → e.vmid = m := by
  unfold Selector.vmidCond
  cases q.vmid <;> simp

/-- `NoteApplies` (R87). -/
theorem noteApplies_iff (c : Params) (pe : Pe) :
    noteApplies c pe = true ↔ targetSecurity c pe = .secure ∧ targetRegime c pe = .el10 := by
  simp [noteApplies]

/-- The exemption of another PE (R87). -/
theorem exemptPe_iff (c : Params) (p : Nat) (pe : Pe) (a : Nat) (other : Pe) :
    exemptPe c p pe a other = true ↔
      targetSecurity c pe = .secure ∧ targetRegime c pe = .el10 ∧ a ≠ p ∧ c.haveEl3 = true ∧
        other.scr.eel2 ≠ pe.scr.eel2 := by
  simp [exemptPe, noteApplies_iff, and_assoc]

/-- What the kind of an agent asks of an entry: of a PE that it is not exempt (R87), of a System MMU
that the Note applies and the VMID is 0 (R88). -/
theorem agentOwes_and_vmid_iff (c : Params) (p : Nat) (pe : Pe) (a : Nat) (kind : AgentKind)
    (e : TlbEntry) :
    agentOwes c p pe a kind = true ∧ (vmidZeroOnly kind = true → e.vmid = 0#16) ↔
      (∀ other, kind = .pe other →
        ¬(targetSecurity c pe = .secure ∧ targetRegime c pe = .el10 ∧ a ≠ p ∧
          c.haveEl3 = true ∧ other.scr.eel2 ≠ pe.scr.eel2)) ∧
      (kind = .systemMmu →
        targetSecurity c pe = .secure ∧ targetRegime c pe = .el10 ∧ e.vmid = 0#16) := by
  cases kind with
  | pe other => simp [agentOwes, vmidZeroOnly, ← exemptPe_iff]
  | systemMmu => simp [agentOwes, vmidZeroOnly, noteApplies_iff, and_assoc]

/-- Settles O28: what the agent owes (R84, R86 to R88) and what the selector asks (R83), each
condition as its own lemma gives it. -/
theorem requiredIsTheConjunctionOfItsConditions :
    Obligations.RequiredIsTheConjunctionOfItsConditions := by
  intro s p pe v a kind e
  refine ⟨fun h => ?_, fun h => by rw [h]; rfl, fun h => by rw [h]; rfl, fun h => by rw [h]; rfl,
    fun g hg => ?_⟩
  · have hreserved : granuleOf (operandTg v) = none := by rw [h]; rfl
    exact ⟨hreserved, by rw [requirement_reserved hreserved]; rfl⟩
  · have hkind := agentOwes_and_vmid_iff s.params p pe a kind e
    rw [requires_requirement_iff hg, Selector.selects_iff, Selector.asidCond_iff,
      Selector.vmidCond_iff, Selector.levelCond_iff]
    simp only [selectorFor, asidOk_iff, operandAsid]
    tauto

end Sys2Proof.Machine
end

section
/-! PROOFS. The operation (`40_tlbi_rvale1is.md`): when the instruction raises, the range and the
level its operand names, the entries it requires, the requests it issues, and their performance. -/

namespace Sys2Proof.Machine

/-! ### Raising (R16, R71, R72) -/

/-- Settles O9: at EL0 no field is read. -/
theorem undefinedAtEl0 : Obligations.UndefinedAtEl0 := by
  intro s p pe t h h0
  have ha := access_el0 (s := s) (p := p) h0
  refine ⟨ha, ?_⟩
  split
  · next hpc => exact exec_at_lastPc h t hpc
  · next hpc => exact exec_of_access_some h t hpc ha

/-- Settles O10: where a trap condition holds `noTrap` fails, and what is then raised changes the
fault record alone. -/
theorem trappedToEl2FromEl1 : Obligations.TrappedToEl2FromEl1 := by
  intro s p pe t h hpresent h1 hel2 haarch64 htrap
  have hn : noTrap s p pe = false := (noTrap_eq_false_iff s p pe).2 ⟨hel2, haarch64, htrap⟩
  have ha : access s p pe = some (.systemAccessTrap .el2 0x18) := by
    rw [access_el1 hpresent h1, hn]
    rfl
  exact ⟨ha, fun hpc => ⟨_, exec_of_access_some h t hpc ha, raise_pe?_self h.here _ _,
    fun q hq => raise_pe?_of_ne hq _ _ _, raise_sets s p _ _⟩⟩

/-! ### The range (R77, R78, R84) -/

/-- R77: the field stands where it is shifted to, as long as it stays within 64 bits. -/
theorem extractLsb'_append_shiftLeft (hi : BitVec 27) (baf : BitVec 37) {n : Nat} (hn : n ≤ 27) :
    ((hi ++ baf : BitVec 64) <<< n).extractLsb' n 37 = baf := by
  apply BitVec.eq_of_getLsbD_eq
  intro i hi
  simp only [BitVec.getLsbD_extractLsb', BitVec.getLsbD_shiftLeft, BitVec.getLsbD_append]
  simp [hi, show n + i < 64 by omega]

/-- Shifted left by `n`, a word is a multiple of `2^n`. -/
theorem toNat_shiftLeft_mod (x : Word) {n : Nat} (hn : n ≤ 64) :
    (x <<< n).toNat % 2 ^ n = 0 := by
  rw [BitVec.toNat_shiftLeft, Nat.shiftLeft_eq, Nat.mod_mod_of_dvd _ (Nat.pow_dvd_pow 2 hn),
    Nat.mul_mod_left]

/-- A granule has at most 16 address bits (R76). -/
theorem granuleShift_le (g : Granule) : granuleShift g ≤ 16 := by
  cases g <;> decide

/-- R77: `sign` puts copies of bit 36 above the field. -/
theorem sign_append_eq_signExtend (g : Granule) (baf : BitVec 37) :
    (baseHighBits .sign g baf ++ baf : BitVec 64) = baf.signExtend 64 := by
  rw [BitVec.signExtend_eq_append_of_le (by omega), BitVec.cast_eq]
  rfl

/-- Zeros may be put below the field after its sign is extended, or before. -/
theorem signExtend_shiftLeft (baf : BitVec 37) (n : Nat) :
    baf.signExtend 64 <<< n = (baf ++ 0#n).signExtend 64 := by
  apply BitVec.eq_of_getLsbD_eq
  intro i hi
  simp only [BitVec.getLsbD_shiftLeft, BitVec.getLsbD_signExtend, BitVec.getLsbD_append,
    BitVec.msb_append]
  by_cases hlow : i < n
  · simp [hlow]; omega
  · simp [hlow, hi, show i - n < 64 by omega, show i < 37 + n ↔ i - n < 37 by omega]

/-- Settles O20: shifted by the granule's bits, the field stands where R77 puts it, and with it the
extension. -/
theorem baseExtendsTheField : Obligations.BaseExtendsTheField := by
  intro baf
  have hsign (g : Granule) :
      baseAddress .sign g baf = (baf ++ 0#(granuleShift g)).signExtend 64 := by
    rw [baseAddress, sign_append_eq_signExtend, signExtend_shiftLeft]
  have hshift := granuleShift_le
  refine ⟨fun x g => ⟨?_, ?_, ?_, fun hbit => ?_⟩, hsign .g4K, hsign .g16K, hsign .g64K⟩
  · exact extractLsb'_append_shiftLeft _ baf ((hshift g).trans (by decide))
  · exact toNat_shiftLeft_mod _ ((hshift g).trans (by decide))
  · rw [BitVec.setWidth_eq_append (by omega)]
    rfl
  · rw [baseAddress, baseHighBits, hbit]
    rfl

/-- Settles O21: the shifts of R76 are the granules' bytes. -/
theorem rangeIsTheFormula : Obligations.RangeIsTheFormula := by
  refine fun c v => ⟨fun g => rfl, fun g => ?_, fun g va hva _ hend => hva.trans_le hend⟩
  cases g <;> rfl

/-- The low bits of the BaseADDR field are those of the operand (R75). -/
theorem operandBaf_mod_ne_zero_iff (v : Word) {k : Nat} (hk : k ≤ 37) :
    (operandBaf v).toNat % 2 ^ k ≠ 0 ↔ v.extractLsb' 0 k ≠ 0#k := by
  rw [Ne, Ne, ← BitVec.toNat_inj, operandBaf, BitVec.extractLsb'_toNat, BitVec.extractLsb'_toNat,
    Nat.shiftRight_zero, Nat.mod_mod_of_dvd _ (Nat.pow_dvd_pow 2 hk)]
  rfl

theorem ttl_cases (ttl : BitVec 2) :
    ttl = 0b00#2 ∨ ttl = 0b01#2 ∨ ttl = 0b10#2 ∨ ttl = 0b11#2 := by
  decide +revert

/-- The rows of R84 name bits of the field. -/
theorem alignedBits_le {g : Granule} {ttl : BitVec 2} {k : Nat} (h : alignedBits g ttl = some k) :
    k ≤ 37 := by
  cases g <;> rcases ttl_cases ttl with rfl | rfl | rfl | rfl <;> cases h <;> decide

/-- R84: the range is UNPREDICTABLE where a row asks for low bits of BaseADDR that are not 0. -/
theorem unpredictableRange_iff (g : Granule) (v : Word) :
    unpredictableRange g v = true ↔
      ∃ k, alignedBits g (operandTtl v) = some k ∧ v.extractLsb' 0 k ≠ 0#k := by
  unfold unpredictableRange
  rcases hk : alignedBits g (operandTtl v) with _ | k
  · simp
  · simp only [decide_eq_true_eq, operandBaf_mod_ne_zero_iff v (alignedBits_le hk),
      Option.some.injEq, exists_eq_left']

/-- Settles O23: the rows that `alignedBits` has. -/
theorem unpredictableRangeTable : Obligations.UnpredictableRangeTable := by
  intro g v
  rw [unpredictableRange_iff]
  cases g <;> rcases ttl_cases (operandTtl v) with h | h | h | h <;> simp [alignedBits, h]

/-! ### The level condition (R62, R81) -/

/-- Settles O24: by the four TTL values. -/
theorem levelConditionByTtl : Obligations.LevelConditionByTtl := by
  intro q g ttl e hq
  constructor
  · rw [Selector.levelCond_iff, hq]
    rcases ttl_cases ttl with rfl | rfl | rfl | rfl
    · simp [effectiveTtl, levelOf]
    · by_cases hg : g = .g16K <;> simp [effectiveTtl, levelOf, hg]
    · simp [effectiveTtl, levelOf]
    · simp [effectiveTtl, levelOf]
  · intro hfalse
    refine Bool.eq_false_iff.2 fun hsel => ?_
    obtain ⟨-, -, -, -, -, -, -, hlevel, -⟩ := (Selector.selects_iff q e).1 hsel
    exact Bool.eq_false_iff.1 hfalse hlevel

/-! ### Target Security state, regime and VMID (R79, R80) -/

/-- Settles O25: by EL3, then by NS. -/
theorem targetSecurityFollowsNs : Obligations.TargetSecurityFollowsNs := by
  intro c pe
  exact ⟨fun h3 hns => by simp [targetSecurity, h3, hns],
    fun h3 hns => by simp [targetSecurity, h3, hns], fun h3 => by simp [targetSecurity, h3]⟩

/-- R80: the EL2&0 regime is the target, and no VMID is compared. -/
theorem target_of_el20 {c : Params} {pe : Pe} (h : targetsEl20 c pe = true) :
    targetRegime c pe = .el20 ∧ targetVmid c pe = none := by
  simp [targetRegime, targetVmid, h]

/-- R80: with EL2 enabled the EL1&0 regime of the current VMID is the target. -/
theorem target_of_el10 {c : Params} {pe : Pe} (h2 : el2Enabled c pe = true)
    (h : targetsEl20 c pe = false) :
    targetRegime c pe = .el10 ∧ targetVmid c pe = some pe.currentVmid := by
  simp [targetRegime, targetVmid, h2, h]

/-- R80: without EL2 the EL1&0 regime is the target, and no VMID is compared. -/
theorem target_of_el2_disabled {c : Params} {pe : Pe} (h2 : el2Enabled c pe = false) :
    targetRegime c pe = .el10 ∧ targetVmid c pe = none := by
  simp [targetRegime, targetVmid, targetsEl20, h2]

/-- Settles O26: by EL2, then by E2H and TGE; neither reads `PSTATE.EL`. -/
theorem targetRegimeAndVmid : Obligations.TargetRegimeAndVmid := by
  intro c pe q e hq
  rw [Selector.vmidCond_iff, hq]
  refine ⟨fun h2 he2h htge => ?_, fun h2 hnot => ?_, fun h2 => ?_, fun l => ⟨rfl, rfl⟩⟩
  · have h20 : targetsEl20 c pe = true := by simp [targetsEl20, h2, he2h, htge]
    obtain ⟨hreg, hvmid⟩ := target_of_el20 h20
    simp [hreg, hvmid]
  · have h10 : targetsEl20 c pe = false := by simpa [targetsEl20, h2] using hnot
    obtain ⟨hreg, hvmid⟩ := target_of_el10 h2 h10
    simp [hreg, hvmid]
  · obtain ⟨hreg, hvmid⟩ := target_of_el2_disabled h2
    simp [hreg, hvmid]

/-! ### The worked example (R96) -/

/-- The operand of the worked example. -/
def exampleOperand : Word := 0x0001400000080000#64

/-- R96: the range of the worked example begins at `0x80000000`, whether `BaseExt` is sign or zero:
bit 36 of the field is 0. -/
theorem operandBase_example {c : Params} (h : c.baseExt ≠ .free) :
    operandBase c .g4K exampleOperand = 0x80000000 := by
  unfold operandBase
  cases hx : c.baseExt with
  | sign => decide
  | zero => decide
  | free => exact absurd hx h

/-- R96: two granules of 4K from there. -/
theorem operandEnd_example {c : Params} (h : c.baseExt ≠ .free) :
    operandEnd c .g4K exampleOperand = 0x80002000 := by
  rw [operandEnd, operandBase_example h]
  decide

/-- Settles O31: the conditions of R89 at the operand of the example; those of the level, the VMID
and the Note ask nothing. -/
theorem workedExampleRequiredSet : Obligations.WorkedExampleRequiredSet := by
  intro s p pe a other e h2 h3 hsec himpl huse hmatch hext hdomain
  have hdisabled : el2Enabled s.params pe = false := by simp [el2Enabled, h2]
  obtain ⟨hregime, hvmid⟩ := target_of_el2_disabled hdisabled
  obtain ⟨-, -, hsecurity⟩ := targetSecurityFollowsNs s.params pe
  have hunpred : unpredictableRange .g4K exampleOperand = false := by decide
  have hlevel : levelOf (effectiveTtl .g4K (operandTtl exampleOperand)) = none := by decide
  have hasid : exampleOperand.extractLsb' 48 16 = 1#16 := by decide
  obtain ⟨-, -, -, -, hreq⟩ :=
    requiredIsTheConjunctionOfItsConditions s p pe exampleOperand a (.pe other) e
  rw [← exampleOperand, hreq .g4K (by decide), hdomain, hunpred, asidBitsInUse_of_fixed himpl huse,
    hsecurity h3, hsec, hregime, hvmid, hlevel, hasid, hmatch, operandBase_example hext,
    operandEnd_example hext]
  cases e.global with
  | true => simp [rangeCond]
  | false => simp [rangeCond]; tauto

/-! ### The issue, agent by agent (R86, R90) -/

section issueAt
variable {s : State} {p a : Nat} (pe : Pe) (v : Word) (ag : Agent)

theorem issueAt_outside (h : s.sameDomain p a = false) : issueAt s p pe v a ag = ag := by
  simp [issueAt, h]

theorem issueAt_pending (h : s.sameDomain p a = true) (hc : s.params.completion = .pending) :
    issueAt s p pe v a ag =
      { ag with pending := ag.pending ++ [requestFor s p pe v a ag.kind] } := by
  simp [issueAt, h, deliver, hc]

theorem issueAt_immediate (h : s.sameDomain p a = true)
    (hc : s.params.completion = .immediate) :
    issueAt s p pe v a ag =
      { ag with
        tlb := ag.tlb.remove (requirement s p pe v a ag.kind) (Config.alsoRemoved s.draws a) } := by
  simp [issueAt, h, deliver, hc, requestFor]

end issueAt

/-- Agent `a` after an issue by PE `p`: its sets are those of `issueAt`, and of the PEs only the
issuer's changed, in its `pc`. -/
theorem issue_agent {s : State} {p : Nat} {pe : Pe} (hpe : s.pe? p = some pe) {a : Nat} {ag : Agent}
    (ha : s.agents[a]? = some ag) (v : Word) :
    ∃ ag', (s.issue p pe v).agents[a]? = some ag' ∧ ag'.domain = ag.domain ∧
      ag'.kind = (if a = p then .pe pe.advance else ag.kind) ∧
      ag'.tlb = (issueAt s p pe v a ag).tlb ∧ ag'.pending = (issueAt s p pe v a ag).pending := by
  refine ⟨_, by rw [issue_lookup, ha]; rfl, ?_⟩
  by_cases h : p = a
  · subst h
    obtain ⟨ag₀, h₀, hk⟩ := pe?_eq_some.1 hpe
    cases ha.symm.trans h₀
    simp [issueAt_domain, issueAt_kind, hk]
  · simp [h, Ne.symm h, issueAt_domain, issueAt_kind]

/-- Settles O32, outside the domain and, inside, by the completion model. -/
theorem issueAddsOneRequestPerTarget : Obligations.IssueAddsOneRequestPerTarget := by
  intro s p pe v a ag hpe ha
  obtain ⟨ag', hu, hdomain, hkind, htlb, hpending⟩ := issue_agent hpe ha v
  refine ⟨ag', hu, hdomain, hkind, fun hout => ?_, fun hin hc => ?_, fun hin hc => ?_⟩
  · rw [htlb, hpending, issueAt_outside pe v ag hout]
    exact ⟨rfl, rfl⟩
  · rw [htlb, hpending, issueAt_pending pe v ag hin hc]
    exact ⟨rfl, rfl⟩
  · rw [htlb, hpending, issueAt_immediate pe v ag hin hc]
    exact ⟨rfl, _, rfl⟩

/-- R84: in the UNPREDICTABLE cases nothing is required. -/
theorem requirement_unpredictable {v : Word} {g : Granule}
    (hg : granuleOf (operandTg v) = some g) (h : unpredictableRange g v = true) (s : State)
    (p : Nat) (pe : Pe) (a : Nat) (kind : AgentKind) : requirement s p pe v a kind = none := by
  simp [requirement, hg, h]

/-- In a well-formed system only the request just issued carries its number (log 13). -/
theorem eq_requestFor_of_id {s : State} (hwf : s.wf = true) {p : Nat} {pe : Pe} {v : Word} {a : Nat}
    {ag' : Agent} (hu : (s.issue p pe v).agents[a]? = some ag') {r : Request}
    (hr : r ∈ ag'.pending) (hid : r.id = s.nextRequest) :
    ∃ kind, r = requestFor s p pe v a kind := by
  obtain ⟨ag, ha, hpending⟩ := issue_lookup_pending hu
  rw [hpending] at hr
  rcases mem_issueAt_pending hr with hold | ⟨-, hnew⟩
  · obtain ⟨-, -, hissued, -⟩ := (agent_wf_iff _ _ _).1 (agent_wf_of_lookup hwf ha)
    exact absurd hid (hissued r hold).1.ne
  · exact ⟨_, hnew⟩

/-- Settles O34: the instruction issues, with an empty requirement. -/
theorem reservedOrUnpredictableStillCompletes :
    Obligations.ReservedOrUnpredictableStillCompletes := by
  intro s p pe t hwf h ha hpc hv
  have hnone : ∀ a kind, requirement s p pe (pe.readX t) a kind = none := by
    intro a kind
    rcases hv with htg | ⟨g, hg, hunpred⟩
    · exact requirement_reserved (by rw [htg]; rfl) s p pe a kind
    · exact requirement_unpredictable hg hunpred s p pe a kind
  refine ⟨_, exec_of_access_none h t hpc ha, issue_pe?_self h.here _, fun a ag r hu hr hid e => ?_⟩
  obtain ⟨kind, rfl⟩ := eq_requestFor_of_id hwf hu hr hid
  rw [requestFor, hnone]
  rfl

/-! ### Two executions (R94) -/

/-- An issue moves no agent to another domain (R90). -/
theorem issue_sameDomain (s : State) (p : Nat) (pe : Pe) (v : Word) (b a : Nat) :
    (s.issue p pe v).sameDomain b a = s.sameDomain b a := by
  refine sameDomain_congr (fun c => ?_) b a
  rw [issue_lookup, Option.map_map]
  congr 1
  funext ag
  by_cases h : p = c <;> simp [h, issueAt_domain]

/-- The required predicate of an execution is the same after an issue (R89, R90). -/
theorem requirement_issue (s : State) (p : Nat) (pe core : Pe) (v w : Word) (a : Nat)
    (kind : AgentKind) :
    requirement (s.issue p pe w) p core v a kind = requirement s p core v a kind := by
  unfold requirement
  rw [issue_sameDomain]
  rfl

/-- Settles O35: the second issue finds the first one's request at the same agents, and requires the
same, for it reads no `pc` and nothing else the first changed. -/
theorem twoExecutionsIssueTwoRequests : Obligations.TwoExecutionsIssueTwoRequests := by
  intro s p pe v a ag hc hpe ha hdomain
  obtain ⟨ag₁, h₁, -, hkind, -, hpending₁⟩ := issue_agent hpe ha v
  obtain ⟨ag₂, h₂, -, -, -, hpending₂⟩ := issue_agent (issue_pe?_self hpe v) h₁ v
  have hreq : requirement (s.issue p pe v) p pe.advance v a ag₁.kind =
      requirement s p pe v a ag.kind := by
    rw [requirement_issue, hkind]
    split
    · next hself =>
      subst hself
      obtain ⟨ag₀, h₀, hissuer⟩ := pe?_eq_some.1 hpe
      cases ha.symm.trans h₀
      rw [hissuer]
      rfl
    · rfl
  refine ⟨ag₂, _, h₂, ?_, rfl⟩
  have hdomain₁ : (s.issue p pe v).sameDomain p a = true := by rw [issue_sameDomain, hdomain]
  rw [hpending₂, issueAt_pending _ v ag₁ hdomain₁ hc, hpending₁, issueAt_pending pe v ag hdomain hc]
  simp [requestFor, hreq]

/-! ### Performing (R91, R94) -/

/-- Settles O36: no entry that is left is required. -/
theorem secondPerformRemovesNothing : Obligations.SecondPerformRemovesNothing := by
  intro t q also
  refine List.filter_eq_self.2 fun e he => ?_
  obtain ⟨-, hreq, -⟩ := (Tlb.mem_remove t q also e).1 he
  simp [hreq]

/-- A perform that draws every required entry removes exactly what it draws (R91). -/
theorem Tlb.remove_eq_filter {t : Tlb} {q : Option Selector} {K : List TlbEntry}
    (h : ∀ e ∈ t, requires q e = true → e ∈ K) :
    t.remove q K = t.filter fun e => !K.contains e := by
  refine List.filter_congr fun e he => ?_
  cases hreq : requires q e
  · simp
  · simp [h e he hreq]

/-- A perform turn changes no agent but its own (R91). -/
theorem perform_lookup_of_ne {a b : Nat} (h : b ≠ a) (s : State) (id : Nat)
    (also : List TlbEntry) : (s.perform a id also).agents[b]? = s.agents[b]? := by
  rw [perform_lookup, if_neg h.symm, Option.map_id']

/-- Settles O39: every required entry is in `K`, so the perform removes `K` alone. -/
theorem performRemovesAnySetAboveTheRequired :
    Obligations.PerformRemovesAnySetAboveTheRequired := by
  intro s a ag r K hwf ha hr habove _
  have hself := perform_lookup_self (s := { s with turn := .perform a r.id K }) hwf ha hr K
  rw [Agent.perform, Tlb.remove_eq_filter habove, erase_pending (pending_distinct hwf ha)] at hself
  exact ⟨_, rfl, hself, fun b hb => perform_lookup_of_ne hb _ _ _, perform_params _ _ _ _,
    perform_refusal _ _ _ _, perform_nextRequest _ _ _ _⟩

/-! ### The domain of the issuer (R86, R113) -/

/-- Settles O38: the agent is not the issuer, and an issue does nothing to it. -/
theorem outsideTheDomainIsUntouched : Obligations.OutsideTheDomainIsUntouched := by
  intro i s u p pe a h hexec hout
  obtain ⟨ag₀, h₀, -⟩ := pe?_eq_some.1 h.here
  have hne : p ≠ a := by
    rintro rfl
    simp [sameDomain_self h₀] at hout
  obtain ⟨t, q, core, -, hq, hcase⟩ := exec_next_cases hexec
  cases h.turn.symm.trans hq.turn
  rcases hcase with ⟨reason, -, -, rfl⟩ | ⟨-, -, rfl⟩ | ⟨-, -, rfl⟩
  · rw [raise_lookup, if_neg hne, Option.map_id_apply]
  · simp [issue_lookup, hne, issueAt_outside _ _ _ hout]
  · rfl

/-- A request that pends after a step pended before, or was issued by an agent of the domain. -/
theorem SetsChange.mem_pending {s u : State} {a : Nat} {ag ag' : Agent}
    (h : SetsChange s u a ag ag') {r : Request} (hr : r ∈ ag'.pending) :
    r ∈ ag.pending ∨ s.sameDomain r.issuer a = true := by
  cases h with
  | same _ hpending | evict _ _ hpending | fill _ _ _ _ hpending => exact .inl (hpending ▸ hr)
  | issue p pe v _ hpending =>
    rcases mem_issueAt_pending (hpending ▸ hr) with hold | ⟨hdomain, rfl⟩
    · exact .inl hold
    · exact .inr hdomain
  | perform r' also _ _ hpending => exact .inl (List.mem_of_mem_erase (hpending ▸ hr))

/-- Settles O55: an issue adds requests inside the domain only, and no step moves an agent. -/
theorem stepKeepsRequestsInTheirDomain : Obligations.StepKeepsRequestsInTheirDomain := by
  intro s u hs hstep a ag' r hu hr
  obtain ⟨ag, ha⟩ := step_agent_before hstep hu
  obtain ⟨ag₁, hu₁, -, hsets⟩ := step_agent hstep ha
  cases hu.symm.trans hu₁
  obtain ⟨-, hdomains, -⟩ := noStepWritesRegistersOrLevel s u hstep
  rw [sameDomain_congr hdomains]
  rcases hsets.mem_pending hr with hold | hnew
  · exact hs a ag r ha hold
  · exact hnew

end Sys2Proof.Machine
end

section
/-! PROOFS. Exceptions (`60_exceptions.md`): what one step does to one PE, faults and traps (R97 to
R106), and programs of this spec, which are never refused (R125, R126). -/

namespace Sys2Proof.Machine

/-! ### One PE after a step (R102, R103) -/

/-- Every way one step can change PE `p`: only its own instruction step does, and that records a
fault or runs the instruction found at `pc`. -/
theorem step_pe?_cases {s u : State} (hstep : step s = .next u) {p : Nat} {pe : Pe}
    (hp : s.pe? p = some pe) :
    u.pe? p = some pe ∨ (Executes s p pe ∧
      ((∃ r, u.pe? p = some { pe with fault := some r }) ∨
        ∃ t, pe.next = .run (.tlbiRvale1is t) ∧ u.pe? p = some pe.advance)) := by
  obtain ⟨ag, ha, hk⟩ := pe?_eq_some.1 hp
  obtain ⟨ag', hu, hchange, -⟩ := step_agent hstep ha
  have here : ∀ {core}, ag'.kind = .pe core → u.pe? p = some core :=
    fun hk' => pe?_eq_some.2 ⟨ag', hu, hk'⟩
  rcases hchange.pe with hk' | ⟨core, r, hcore, hfault, hturn, hk'⟩ |
    ⟨core, t, hcore, hfault, hturn, hnext, -, hk'⟩
  · exact .inl (here (hk'.trans hk))
  · cases hk.symm.trans hcore
    exact .inr ⟨⟨hturn, hp, hfault⟩, .inl ⟨r, here hk'⟩⟩
  · cases hk.symm.trans hcore
    exact .inr ⟨⟨hturn, hp, hfault⟩, .inr ⟨t, hnext, here hk'⟩⟩

/-- A step makes no agent a PE. -/
theorem step_pe?_before {s u : State} (hstep : step s = .next u) {p : Nat} {pe' : Pe}
    (hu : u.pe? p = some pe') : ∃ pe, s.pe? p = some pe := by
  obtain ⟨ag', ha', hk'⟩ := pe?_eq_some.1 hu
  obtain ⟨ag, ha⟩ := step_agent_before hstep ha'
  obtain ⟨ag₁, ha₁, hchange, -⟩ := step_agent hstep ha
  cases ha'.symm.trans ha₁
  rcases hchange.pe with hk | ⟨pe, r, hk, -⟩ | ⟨pe, t, hk, -⟩
  · exact ⟨pe', pe?_eq_some.2 ⟨ag, ha, hk.symm.trans hk'⟩⟩
  · exact ⟨pe, pe?_eq_some.2 ⟨ag, ha, hk⟩⟩
  · exact ⟨pe, pe?_eq_some.2 ⟨ag, ha, hk⟩⟩

/-- A step that is not PE `p`'s instruction step leaves it as it is (R102). -/
theorem step_pe?_of_turn_ne {s u : State} (hstep : step s = .next u) {p : Nat}
    (hturn : s.turn ≠ .instruction p) : u.pe? p = s.pe? p := by
  rcases hp : s.pe? p with _ | pe
  · rcases hu : u.pe? p with _ | pe'
    · rfl
    · obtain ⟨pe, hpe⟩ := step_pe?_before hstep hu
      cases hp.symm.trans hpe
  · rcases step_pe?_cases hstep hp with hu | ⟨hexec, -⟩
    · exact hu
    · exact absurd hexec.turn hturn

/-- Settles O15: a PE that executes has no fault recorded, and no other PE changes. -/
theorem faultedPeStaysAsItIs : Obligations.FaultedPeStaysAsItIs := by
  intro s u p pe r hstep hp hfault
  rcases step_pe?_cases hstep hp with hu | ⟨hexec, -⟩
  · exact hu
  · cases hexec.noFault.symm.trans hfault

/-- Settles O50: a move is PE `p`'s instruction step or leaves it as it is. -/
theorem noInterruptIsTaken : Obligations.NoInterruptIsTaken := by
  intro run p hmoves n
  obtain ⟨turn, hstep⟩ := hmoves n
  by_cases hturn : turn = .instruction p
  · subst hturn
    exact .inr hstep
  · exact .inl (step_pe?_of_turn_ne hstep hturn)

/-! ### Raising, and the stop that follows (R97, R98, R100, R103; log 5) -/

/-- Settles O13, PE by PE and agent by agent. -/
theorem raiseChangesOnlyTheFaultRecord : Obligations.RaiseChangesOnlyTheFaultRecord := by
  intro s p pe reason w hp
  refine ⟨raise_pe?_self hp reason w, fun q hq => raise_pe?_of_ne hq s reason w, fun a => ?_,
    rfl, rfl, rfl⟩
  rw [raise_lookup, Option.map_map]
  split <;> rfl

/-- A PE with a fault recorded has no further step (R103). -/
theorem next_of_fault {pe : Pe} {r : FaultRecord} (h : pe.fault = some r) :
    pe.next = .stop (.peStopped r) := by
  simp only [Pe.next, Pe.stopped, h]

/-- Settles O16: the turn of a PE with no further step is a stop. -/
theorem faultedPeHasNoStep : Obligations.FaultedPeHasNoStep := by
  intro s p pe r hturn hp hfault
  simp only [step, hturn, instructionStep, hp, next_of_fault hfault, passing]

/-! ### `HCR_EL2.TTLB` (R72, R106) -/

/-- The PE with `HCR_EL2.TTLB` set to `b`. -/
def Pe.setTtlb (pe : Pe) (b : Bool) : Pe := { pe with hcr := { pe.hcr with ttlb := b } }

/-- What is required of an agent does not depend on `TTLB` (R89, R106). -/
theorem requirement_setTtlb (s : State) (p : Nat) (pe : Pe) (b : Bool) (v : Word) (a : Nat)
    (kind : AgentKind) : requirement s p (pe.setTtlb b) v a kind = requirement s p pe v a kind :=
  rfl

/-- Where EL2 is not enabled or uses AArch32 none of the three conditions of R72 holds. -/
theorem noTrap_of_el2_cannot_trap {s : State} {p : Nat} {pe : Pe}
    (h : ¬(el2Enabled s.params pe = true ∧ el2UsingAArch32 s p = false)) :
    noTrap s p pe = true := by
  by_contra hn
  obtain ⟨hel2, haarch64, -⟩ := (noTrap_eq_false_iff s p pe).1 (Bool.eq_false_iff.2 hn)
  exact h ⟨hel2, haarch64⟩

/-- Except at EL1 under an EL2 that can trap, the access check does not depend on `TTLB` (R106). -/
theorem access_setTtlb {s : State} {p : Nat} {pe : Pe}
    (h : ¬(pe.el = .el1 ∧ el2Enabled s.params pe = true ∧ el2UsingAArch32 s p = false))
    (b : Bool) : access s p (pe.setTtlb b) = access s p pe := by
  cases hpresent : s.params.haveTlbiRange
  · rw [access_notPresent hpresent, access_notPresent hpresent]
  by_cases h0 : pe.el = .el0
  · rw [access_el0 h0, access_el0 (pe := pe.setTtlb b) h0]
  by_cases h1 : pe.el = .el1
  · have hno : ¬(el2Enabled s.params pe = true ∧ el2UsingAArch32 s p = false) :=
      fun hel2 => h ⟨h1, hel2⟩
    rw [access_el1 hpresent h1, access_el1 hpresent (pe := pe.setTtlb b) h1,
      noTrap_of_el2_cannot_trap hno, noTrap_of_el2_cannot_trap (pe := pe.setTtlb b) hno]
  · rw [access_above_el1 hpresent h0 h1, access_above_el1 (pe := pe.setTtlb b) hpresent h0 h1]

/-- Settles O11: TTLB is one of the trap conditions, and is read by none of the other parts. -/
theorem ttlbActsOnlyAtEl1UnderEl2 : Obligations.TtlbActsOnlyAtEl1UnderEl2 := by
  intro s p pe t b
  refine ⟨fun hexec hpresent h1 hel2 haarch64 httlb => ?_,
    fun h => ⟨access_setTtlb h b, requirement_setTtlb s p pe b⟩, access_el0,
    fun hpresent hel => access_eq_none hpresent (.inr hel)⟩
  have ha : access s p pe = some (.systemAccessTrap .el2 0x18) :=
    (trappedToEl2FromEl1 s p pe t hexec hpresent h1 hel2 haarch64 (.inl httlb)).1
  refine ⟨ha, ?_⟩
  split
  · next hpc => exact exec_at_lastPc hexec t hpc
  · next hpc => exact exec_of_access_some hexec t hpc ha

/-! ### A PE in a program of this spec (R125) -/

/-- Every PE of a launched system is in a program of this spec. -/
theorem launched_iff (s : State) :
    s.launched = true ↔ ∀ p pe, s.pe? p = some pe → pe.inProgram = true := by
  unfold State.launched
  rw [List.all_eq_true]
  constructor
  · intro h p pe hp
    obtain ⟨ag, ha, hk⟩ := pe?_eq_some.1 hp
    have hag := h ag (List.mem_of_getElem? ha)
    rwa [hk] at hag
  · intro h ag hag
    obtain ⟨p, ha⟩ := List.getElem?_of_mem hag
    rcases hk : ag.kind with pe | _
    · exact h p pe (pe?_eq_some.2 ⟨ag, ha, hk⟩)
    · rfl

theorem fetch_noProgram {pe : Pe} (h : pe.program = none) : pe.fetch = .done := by
  simp only [Pe.fetch, h]

/-- The word of the text at `pc` is the word that is fetched there (R37). -/
theorem fetchWord_of_wordAt_pc {pe : Pe} {w : InstrWord} (h : pe.wordAt pe.pc.toNat = some w) :
    pe.fetchWord = .word w := by
  unfold Pe.wordAt at h
  rw [BitVec.ofNat_toNat, BitVec.setWidth_eq] at h
  split at h
  · next hw =>
    cases h
    exact hw
  · cases h

section inProgram
variable {pe : Pe} {c : Program} (hc : pe.program = some c)
include hc

/-- What `Pe.inProgram` says of a PE with a program. -/
theorem inProgram_iff :
    pe.inProgram = true ↔
      c.base.toNat % 4 = 0 ∧ c.limit < 2 ^ 64 ∧ pe.pc.toNat % 4 = 0 ∧
        c.base.toNat ≤ pe.pc.toNat ∧ pe.pc.toNat ≤ c.limit ∧
        ∀ k < c.count, ∃ w, pe.wordAt (c.base.toNat + 4 * k) = some w ∧
          w &&& patternMask = patternMatch := by
  simp only [Pe.inProgram, hc, Bool.and_eq_true, decide_eq_true_eq, List.all_eq_true,
    List.mem_range, and_assoc, and_congr_right_iff]
  intro _ _ _ _ _
  refine forall₂_congr fun k _ => ?_
  cases pe.wordAt (c.base.toNat + 4 * k) <;> simp

/-- At the end of the program there is no further instruction step (R125). -/
theorem fetch_atEnd (htop : c.limit ≤ 2 ^ 64) (hpc : pe.pc.toNat % 4 = 0)
    (hend : pe.pc.toNat = c.limit) : pe.fetch = .done := by
  have hin : ¬(pe.pc.toNat < c.base.toNat ∨ c.limit < pe.pc.toNat) := by
    unfold Program.limit at hend ⊢
    omega
  simp only [Pe.fetch, hc, if_neg htop.not_gt, if_neg (not_not_intro hpc), if_neg hin, if_pos hend]

/-- Before the end of its program a PE has a whole word left, as `pc` and the end are aligned. -/
theorem pc_add_four_le_limit (h : pe.inProgram = true) (hlt : pe.pc.toNat < c.limit) :
    pe.pc.toNat + 4 ≤ c.limit := by
  obtain ⟨hbase, -, hpc, -⟩ := (inProgram_iff hc).1 h
  unfold Program.limit at hlt ⊢
  omega

/-- R16: before the end of its program a PE is not at the last word of the address space. -/
theorem pc_ne_last_of_inProgram (h : pe.inProgram = true) (hlt : pe.pc.toNat < c.limit) :
    pe.pc.toNat ≠ 2 ^ 64 - 4 := by
  obtain ⟨-, htop, -⟩ := (inProgram_iff hc).1 h
  have := pc_add_four_le_limit hc h hlt
  omega

/-- Before its end, a PE that advances stays in its program (R90, R125). -/
theorem advance_inProgram (h : pe.inProgram = true) (hlt : pe.pc.toNat < c.limit) :
    pe.advance.inProgram = true := by
  have hle := pc_add_four_le_limit hc h hlt
  obtain ⟨hbase, htop, hpc, hlo, -, hwords⟩ := (inProgram_iff hc).1 h
  have hpc' : pe.advance.pc.toNat = pe.pc.toNat + 4 :=
    BitVec.toNat_add_of_lt (y := 4#64) (hle.trans_lt htop)
  refine (inProgram_iff (pe := pe.advance) hc).2 ⟨hbase, htop, ?_, ?_, ?_, hwords⟩ <;> omega

end inProgram

/-- A PE in a program of this spec is at its end, or finds the instruction at `pc`. -/
theorem fetch_of_inProgram {pe : Pe} (h : pe.inProgram = true) :
    pe.fetch = .done ∨ ∃ c w t, pe.program = some c ∧ pe.pc.toNat < c.limit ∧
      pe.fetch = .word w ∧ decode w = .instr (.tlbiRvale1is t) := by
  rcases hc : pe.program with _ | c
  · exact .inl (fetch_noProgram hc)
  obtain ⟨hbase, htop, hpc, hlo, hhi, hwords⟩ := (inProgram_iff hc).1 h
  rcases hhi.eq_or_lt with hend | hlt
  · exact .inl (fetch_atEnd hc htop.le hpc hend)
  have hk : (pe.pc.toNat - c.base.toNat) / 4 < c.count := by
    unfold Program.limit at hlt
    omega
  obtain ⟨w, hw, hmatch⟩ := hwords _ hk
  rw [show c.base.toNat + 4 * ((pe.pc.toNat - c.base.toNat) / 4) = pe.pc.toNat by omega] at hw
  exact .inr ⟨c, w, _, rfl, hlt,
    (fetch_inside hc htop.le hpc hlo hlt).trans (fetchWord_of_wordAt_pc hw),
    (decode_eq_tlbi_iff w _).2 ⟨hmatch, rfl⟩⟩

/-! ### Steps of launched programs (R103, R125, R126) -/

/-- A PE in a program of this spec stays in it whatever step is taken. -/
theorem step_keeps_inProgram {s u : State} (hstep : step s = .next u) {p : Nat} {pe pe' : Pe}
    (hp : s.pe? p = some pe) (h : pe.inProgram = true) (hu : u.pe? p = some pe') :
    pe'.inProgram = true := by
  rcases step_pe?_cases hstep hp with hu' | ⟨hexec, ⟨r, hu'⟩ | ⟨t, hnext, hu'⟩⟩
  · cases hu.symm.trans hu'
    exact h
  · cases hu.symm.trans hu'
    exact h
  · cases hu.symm.trans hu'
    rcases fetch_of_inProgram h with hdone | ⟨c, -, -, hc, hlt, -⟩
    · rw [next_of_executes hexec, hdone] at hnext
      cases hnext
    · exact advance_inProgram hc h hlt

/-- Every step keeps every PE in its program. -/
theorem step_keeps_launched {s u : State} (h : s.launched = true) (hstep : step s = .next u) :
    u.launched = true := by
  refine (launched_iff u).2 fun p pe' hu => ?_
  obtain ⟨pe, hp⟩ := step_pe?_before hstep hu
  exact step_keeps_inProgram hstep hp ((launched_iff s).1 h p pe hp) hu

/-- At the end of its program, and without one, only the turn passes on (R125). -/
theorem step_of_fetch_done {s : State} {p : Nat} {pe : Pe} (h : Executes s p pe)
    (hfetch : pe.fetch = .done) : step s = .next s.pass := by
  have hnext : pe.next = .nothing := by
    rw [next_of_executes h, hfetch]
    rfl
  simp only [step, h.turn, instructionStep, h.here, hnext, passing]

/-- Short of the last word of the address space the instruction comes to a next state, and leaves
the refusal mark as it is (R73, R126). -/
theorem exec_next_of_pc_ne_last {s : State} {p : Nat} {pe : Pe} (h : Executes s p pe)
    (t : BitVec 5) (hpc : pe.pc.toNat ≠ 2 ^ 64 - 4) :
    ∃ u, exec (.tlbiRvale1is t) s = .next u ∧ u.refusal = s.refusal := by
  rcases ha : access s p pe with _ | reason
  · exact ⟨_, exec_of_access_none h t hpc ha, rfl⟩
  · exact ⟨_, exec_of_access_some h t hpc ha, rfl⟩

/-- The instruction step of a PE in a program of this spec is not refused. -/
theorem step_of_inProgram {s : State} {p : Nat} {pe : Pe} (h : Executes s p pe)
    (hin : pe.inProgram = true) : ∃ u, step s = .next u ∧ u.refusal = s.refusal := by
  rcases fetch_of_inProgram hin with hdone | ⟨c, w, t, hc, hlt, hfetch, hdecode⟩
  · exact ⟨_, step_of_fetch_done h hdone, rfl⟩
  · obtain ⟨u, hu, hmark⟩ := exec_next_of_pc_ne_last h t (pc_ne_last_of_inProgram hc hin hlt)
    refine ⟨u.pass, ?_, hmark⟩
    rw [step_of_fetch_instr h hfetch hdecode, hu]
    rfl

/-- A turn that is no PE's instruction step comes to a next state, and leaves the refusal mark as it
is (R51, R91, R126). -/
theorem step_of_no_pe {s : State} (h : ∀ p, s.turn = .instruction p → s.pe? p = none) :
    ∃ u, step s = .next u ∧ u.refusal = s.refusal := by
  cases hturn : s.turn with
  | instruction p =>
    exact ⟨s.pass, by simp only [step, hturn, instructionStep, h p hturn, passing], rfl⟩
  | perform a id also =>
    exact ⟨(s.perform a id also).pass, by simp only [step, hturn], perform_refusal s a id also⟩
  | evict a e => exact ⟨(s.evict a e).pass, by simp only [step, hturn], rfl⟩
  | fill a e => exact ⟨(s.fill a e).pass, by simp only [step, hturn], fill_refusal s a e⟩

/-- Where every PE is in a program of this spec, a step comes to a next state and leaves the refusal
mark as it is, or it is the turn of a PE with a fault recorded. -/
theorem step_of_launched {s : State} (h : s.launched = true) :
    (∃ u, step s = .next u ∧ u.refusal = s.refusal) ∨
      ∃ p pe r, s.turn = .instruction p ∧ s.pe? p = some pe ∧ pe.fault = some r := by
  by_cases hpe : ∃ p pe, s.turn = .instruction p ∧ s.pe? p = some pe
  · obtain ⟨p, pe, hturn, hp⟩ := hpe
    cases hfault : pe.fault with
    | none => exact .inl (step_of_inProgram ⟨hturn, hp, hfault⟩ ((launched_iff s).1 h p pe hp))
    | some r => exact .inr ⟨p, pe, r, hturn, hp, hfault⟩
  · exact .inl (step_of_no_pe fun p hturn =>
      Option.eq_none_iff_forall_ne_some.2 fun pe hp => hpe ⟨p, pe, hturn, hp⟩)

/-- Settles O56: a launched system steps without a refusal or stops at a fault, and every step keeps
it launched. -/
theorem launchedProgramsAreNeverRefused : Obligations.LaunchedProgramsAreNeverRefused := by
  intro s h hmark
  rcases step_of_launched h with ⟨u, hstep, hu⟩ | ⟨p, pe, r, hturn, hp, hfault⟩
  · exact .inl ⟨u, hstep, step_keeps_launched h hstep, hu.trans hmark⟩
  · exact .inr ⟨p, pe, r, hturn, hp, hfault, faultedPeHasNoStep s p pe r hturn hp hfault⟩

end Sys2Proof.Machine
end

section
/-! PROOFS. Reset and hazards (`70_reset_and_hazards.md`): exits and final states (R125), and
refusals (R126). -/

namespace Sys2Proof.Machine

/-! ### Exits (R125; log 3) -/

/-- Settles O17: without a program, and at an aligned `end(p)`, nothing is fetched. -/
theorem exitedPeHasNoStep : Obligations.ExitedPeHasNoStep := by
  rintro s p pe hexec (hnone | ⟨c, hc, hpc, hend⟩)
  · exact step_of_fetch_done hexec (fetch_noProgram hnone)
  · have htop : c.limit ≤ 2 ^ 64 := hend ▸ pe.pc.isLt.le
    exact step_of_fetch_done hexec (fetch_atEnd hc htop hpc hend)

/-! ### The refusal mark (R126; log 6) -/

/-- Settles O51: of the ways to a next state, only a refusal writes the mark, and only where none is
set. -/
theorem refusalMarkIsNeverCleared : Obligations.RefusalMarkIsNeverCleared := by
  intro s u m hstep hmark
  obtain ⟨u₀, rfl, hc⟩ := step_next_cases hstep
  rw [pass_refusal]
  rcases hc with ⟨p, -, rfl⟩ | ⟨p, r, -, hnone, rfl⟩ | ⟨p, pe, reason, t, -, -, -, -, rfl⟩ |
    ⟨p, pe, t, -, -, -, -, rfl⟩ | ⟨a, id, also, -, rfl⟩ | ⟨a, e, -, rfl⟩ | ⟨a, e, -, rfl⟩
  case inr.inl => cases hmark.symm.trans hnone
  all_goals simpa using hmark

/-- The instruction step of a PE is refused, and why: by the fetch, or as there is no successor
(R16, R126). It reads the PE alone. -/
inductive Pe.Refused (pe : Pe) : Refusal → Prop where
  | byFetch {r : Refusal} (next : pe.next = .refuse r) : pe.Refused r
  | noSuccessor {i : Instr} (next : pe.next = .run i) (last : pe.pc = lastPc) :
      pe.Refused .noSuccessor

/-- A PE that runs an instruction has no fault recorded (R103). -/
theorem fault_eq_none_of_next_run {pe : Pe} {i : Instr} (h : pe.next = .run i) :
    pe.fault = none := by
  rcases hfault : pe.fault with _ | r
  · rfl
  · cases h.symm.trans (next_of_fault hfault)

/-- The turn of a refused PE is a refusal, whatever else the state holds. -/
theorem step_of_refused {s : State} {p : Nat} {pe : Pe} {m : Refusal}
    (hturn : s.turn = .instruction p) (hp : s.pe? p = some pe) (h : pe.Refused m) :
    step s = passing (s.refuse m) := by
  cases h with
  | byFetch hnext => simp only [step, hturn, instructionStep, hp, hnext]
  | @noSuccessor i hnext hlast =>
    obtain ⟨t⟩ := i
    have hexec : Executes s p pe := ⟨hturn, hp, fault_eq_none_of_next_run hnext⟩
    simp only [step, hturn, instructionStep, hp, hnext,
      exec_at_lastPc hexec t (eq_lastPc_iff.1 hlast)]

/-- Where the mark is set, the turn of a refused PE is a stop (log 6). -/
theorem step_of_refused_marked {s : State} {p : Nat} {pe : Pe} {m m' : Refusal}
    (hturn : s.turn = .instruction p) (hp : s.pe? p = some pe) (h : pe.Refused m)
    (hmark : s.refusal = some m') : step s = .refused m := by
  simp only [step_of_refused hturn hp h, State.refuse, hmark, passing]

/-- An instruction step that sets the mark is that of a PE refused for the reason it sets. -/
theorem refused_of_instructionStep_marks {s u : State} {p : Nat} {m : Refusal}
    (hturn : s.turn = .instruction p) (hnone : s.refusal = none)
    (hstep : instructionStep p s = .next u) (hmark : u.refusal = some m) :
    ∃ pe, s.pe? p = some pe ∧ pe.Refused m := by
  have unmarked : u.refusal ≠ s.refusal := by simp [hmark, hnone]
  unfold instructionStep at hstep
  split at hstep
  · cases hstep
    exact absurd rfl unmarked
  · next pe hp =>
    refine ⟨pe, hp, ?_⟩
    split at hstep
    · cases hstep
      exact absurd rfl unmarked
    · cases hstep
    · next r hnext =>
      simp only [State.refuse, hnone] at hstep
      cases hstep
      cases hmark
      exact .byFetch hnext
    · next i hnext =>
      obtain ⟨t, q, core, -, hexec, hcase⟩ := exec_next_cases hstep
      cases hturn.symm.trans hexec.turn
      cases hp.symm.trans hexec.here
      rcases hcase with ⟨reason, -, -, rfl⟩ | ⟨-, -, rfl⟩ | ⟨hlast, -, rfl⟩
      · exact absurd rfl unmarked
      · exact absurd rfl unmarked
      · cases hmark
        exact .noSuccessor hnext hlast

/-- A step that sets the mark is refused, and changes no PE. -/
theorem refused_of_step_marks {s u : State} {p : Nat} {m : Refusal}
    (hturn : s.turn = .instruction p) (hnone : s.refusal = none) (hstep : step s = .next u)
    (hmark : u.refusal = some m) :
    u.pe? p = s.pe? p ∧ ∃ pe, s.pe? p = some pe ∧ pe.Refused m := by
  have hpassing : passing (instructionStep p s) = .next u := by simpa only [step, hturn] using hstep
  rcases hi : instructionStep p s with u₀ | f | r <;> rw [hi] at hpassing <;> cases hpassing
  obtain ⟨pe, hp, hrefused⟩ := refused_of_instructionStep_marks hturn hnone hi hmark
  rw [step_of_refused hturn hp hrefused] at hstep
  simp only [State.refuse, hnone, passing] at hstep
  refine ⟨?_, pe, hp, hrefused⟩
  rw [← Host.Outcome.next.inj hstep]
  rfl

/-- No move of any agent takes a refused PE further or changes the mark: its own turn is a stop, and
no other turn changes it. -/
theorem reachable_of_refused {u w : State} {p : Nat} {pe : Pe} {m : Refusal}
    (hp : u.pe? p = some pe) (hrefused : pe.Refused m) (hmark : u.refusal = some m)
    (hreach : Reachable u w) : w.refusal = some m ∧ w.pe? p = some pe := by
  induction hreach with
  | start => exact ⟨hmark, hp⟩
  | @move v w _ hmove ih =>
    obtain ⟨hmarkv, hpv⟩ := ih
    obtain ⟨turn, hstep⟩ := hmove
    refine ⟨refusalMarkIsNeverCleared _ w m hstep hmarkv, ?_⟩
    by_cases hturn : turn = .instruction p
    · have hstop := step_of_refused_marked (s := { v with turn := turn }) hturn hpv hrefused hmarkv
      cases hstop.symm.trans hstep
    · exact (step_pe?_of_turn_ne hstep hturn).trans hpv

/-- Settles O49: whether a PE is refused depends on the PE alone, which no later move changes. -/
theorem refusedPeTakesNoFurtherStep : Obligations.RefusedPeTakesNoFurtherStep := by
  intro s u w p m hturn hnone hstep hmark hreach
  obtain ⟨hsame, pe, hp, hrefused⟩ := refused_of_step_marks hturn hnone hstep hmark
  obtain ⟨hmarkw, hpw⟩ := reachable_of_refused (hsame.trans hp) hrefused hmark hreach
  exact ⟨hmarkw, hpw.trans hp.symm, step_of_refused_marked rfl hpw hrefused hmarkw⟩

/-! ### Final states (R125) -/

theorem nothingPending_iff (s : State) :
    s.nothingPending = true ↔
      ∀ (a : Nat) (ag : Agent), s.agents[a]? = some ag → ag.pending = [] := by
  simp only [State.nothingPending, List.all_eq_true, List.isEmpty_iff, List.mem_iff_getElem?]
  exact ⟨fun h a ag ha => h ag ⟨a, ha⟩, fun h ag ⟨a, ha⟩ => h a ag ha⟩

/-- What holds of every PE the agents are holds of every PE by number. -/
theorem forall_pe?_iff (s : State) (P : Pe → Prop) :
    (∀ ag ∈ s.agents, ∀ pe, ag.kind.pe? = some pe → P pe) ↔ ∀ p pe, s.pe? p = some pe → P pe := by
  constructor
  · intro h p pe hp
    obtain ⟨ag, ha, hk⟩ := pe?_eq_some.1 hp
    exact h ag (List.mem_of_getElem? ha) pe (by rw [hk, kind_pe?_pe])
  · intro h ag hag pe hk
    obtain ⟨p, ha⟩ := List.getElem?_of_mem hag
    exact h p pe (pe?_eq_some.2 ⟨ag, ha, kind_of_pe? hk⟩)

theorem agent_exited_iff (ag : Agent) :
    ag.exited = true ↔ ∀ pe, ag.kind.pe? = some pe → pe.exited = true := by
  rcases hk : ag.kind with pe | _ <;> simp [Agent.exited, hk]

theorem agent_fault_isNone_iff (ag : Agent) :
    ag.fault.isNone = true ↔ ∀ pe, ag.kind.pe? = some pe → pe.fault = none := by
  rcases hk : ag.kind with pe | _ <;> simp [Agent.fault, hk]

/-- A final state, PE by PE. -/
theorem final_iff (s : State) :
    s.final = true ↔ (∀ p pe, s.pe? p = some pe → pe.exited = true) ∧ s.nothingPending = true ∧
      (∀ p pe, s.pe? p = some pe → pe.fault = none) ∧ s.refusal = none := by
  rw [← forall_pe?_iff s (·.exited = true), ← forall_pe?_iff s (·.fault = none)]
  simp only [State.final, State.noFault, Bool.and_eq_true, List.all_eq_true,
    Option.isNone_iff_eq_none, agent_exited_iff, ← agent_fault_isNone_iff, and_assoc]

/-- A PE in a program of this spec that has exited has no program, or is at its aligned end. -/
theorem exited_cases {pe : Pe} (hin : pe.inProgram = true) (hexited : pe.exited = true) :
    pe.program = none ∨
      ∃ c, pe.program = some c ∧ pe.pc.toNat % 4 = 0 ∧ pe.pc.toNat = c.limit := by
  rcases hc : pe.program with _ | c
  · exact .inl rfl
  · obtain ⟨-, -, hpc, -⟩ := (inProgram_iff hc).1 hin
    exact .inr ⟨c, rfl, hpc, by simpa [Pe.exited, hc] using hexited⟩

/-- In a final state of programs of this spec an instruction turn only passes on. -/
theorem step_instruction_of_final {s : State} (hlaunched : s.launched = true)
    (hfinal : s.final = true) {p : Nat} (hturn : s.turn = .instruction p) :
    step s = .next s.pass := by
  obtain ⟨hexited, -, hfault, -⟩ := (final_iff s).1 hfinal
  rcases hp : s.pe? p with _ | pe
  · simp only [step, hturn, instructionStep, hp, passing]
  · exact exitedPeHasNoStep s p pe ⟨hturn, hp, hfault p pe hp⟩
      (exited_cases ((launched_iff s).1 hlaunched p pe hp) (hexited p pe hp))

/-- A step that is no instruction step issues nothing (R51, R90, R91). -/
theorem step_nextRequest_of_turn_ne {s u : State} (hstep : step s = .next u)
    (hne : ∀ p, s.turn ≠ .instruction p) : u.nextRequest = s.nextRequest := by
  obtain ⟨u₀, rfl, hc⟩ := step_next_cases hstep
  rw [pass_nextRequest]
  rcases hc with ⟨p, hturn, -⟩ | ⟨p, r, hturn, -⟩ | ⟨p, pe, reason, t, hexec, -⟩ |
    ⟨p, pe, t, hexec, -⟩ | ⟨a, id, also, -, rfl⟩ | ⟨a, e, -, rfl⟩ | ⟨a, e, -, rfl⟩
  · exact absurd hturn (hne p)
  · exact absurd hturn (hne p)
  · exact absurd hexec.turn (hne p)
  · exact absurd hexec.turn (hne p)
  · exact perform_nextRequest s a id also
  · rfl
  · exact fill_nextRequest s a e

/-- From a final state of programs of this spec every step comes to a next state, with every PE as
it was, no mark set and nothing issued. -/
theorem step_of_final {s : State} (hlaunched : s.launched = true) (hfinal : s.final = true) :
    ∃ u, step s = .next u ∧ u.refusal = s.refusal ∧ u.nextRequest = s.nextRequest ∧
      ∀ p, u.pe? p = s.pe? p := by
  by_cases hturn : ∃ p, s.turn = .instruction p
  · obtain ⟨p, hturn⟩ := hturn
    exact ⟨s.pass, step_instruction_of_final hlaunched hfinal hturn, rfl, rfl, fun _ => rfl⟩
  · have hne : ∀ p, s.turn ≠ .instruction p := not_exists.1 hturn
    obtain ⟨u, hstep, hmark⟩ := step_of_no_pe fun p hturn => absurd hturn (hne p)
    exact ⟨u, hstep, hmark, step_nextRequest_of_turn_ne hstep hne,
      fun p => step_pe?_of_turn_ne hstep (hne p)⟩

/-- Where nothing pends at an agent, a step that issues nothing leaves nothing pending there. -/
theorem SetsChange.pending_eq_nil {s u : State} {a : Nat} {ag ag' : Agent}
    (h : SetsChange s u a ag ag') (hcount : u.nextRequest = s.nextRequest)
    (hnil : ag.pending = []) : ag'.pending = [] := by
  cases h with
  | same _ hpending | evict _ _ hpending | fill _ _ _ _ hpending => exact hpending.trans hnil
  | issue p pe v _ _ hissued => omega
  | perform r also _ _ hpending => rw [hpending, hnil, List.erase_nil]

/-- Where nothing pends, nothing pends after a step that issues nothing. -/
theorem step_keeps_nothingPending {s u : State} (hstep : step s = .next u)
    (hcount : u.nextRequest = s.nextRequest) (h : s.nothingPending = true) :
    u.nothingPending = true := by
  refine (nothingPending_iff u).2 fun a ag' hu => ?_
  obtain ⟨ag, ha⟩ := step_agent_before hstep hu
  obtain ⟨ag₁, hu₁, -, hsets⟩ := step_agent hstep ha
  cases hu.symm.trans hu₁
  exact hsets.pending_eq_nil hcount ((nothingPending_iff s).1 h a ag ha)

/-- Settles O57: no instruction runs, so every PE stays as it was and nothing is issued; entries are
added as in every step, by a fill alone. -/
theorem finalStatesStayFinal : Obligations.FinalStatesStayFinal := by
  intro s hlaunched hfinal
  obtain ⟨u, hstep, hmark, hcount, hpe⟩ := step_of_final hlaunched hfinal
  obtain ⟨hexited, hpending, hfault, hnone⟩ := (final_iff s).1 hfinal
  refine ⟨u, hstep, step_keeps_launched hlaunched hstep, (final_iff u).2 ?_, hpe,
    fun a ag ag' ha hu => onlyFillAddsEntries s u a ag ag' hstep ha hu⟩
  simp only [hpe]
  exact ⟨hexited, step_keeps_nothingPending hstep hcount hpending, hfault, hmark.trans hnone⟩

end Sys2Proof.Machine
end
